-- ==== Sys2Proof/Word.lean ====
section
/-! DEFINITION. The machine's word types (spec/00_scope.md R7, R8; spec/10_state.md R20) and the two values that
name the output line's condition. Bit 0 is the least significant bit of a value and every value is unsigned (R8). -/

namespace Sys2Proof

/-- An 8-bit unsigned value: address byte, command byte, checksum, dim level (R7). -/
abbrev Byte := BitVec 8

/-- A 16-bit unsigned home code (R7). -/
abbrev HomeCode := BitVec 16

/-- A command word as presented on the command port, `CMD_W` = 40 bits (R6, R70). -/
abbrev CmdWord := BitVec 40

/-- A stored symbol code, `SYM_W` = 2 bits (R6, R60). -/
abbrev Symbol := BitVec 2

/-- A 7-bit slot position, the width of `IDX` and `TX_PTR` (R20). -/
abbrev SlotIx := BitVec 7

/-- A pin identifier, `PIN_W` = 8 bits, opaque to the block (R6, R23). -/
abbrev Pin := BitVec 8

/-- The two logical levels of the output line (R10, R190). -/
inductive Level where
  | low
  | high
  deriving DecidableEq, Repr, Inhabited

/-- The external line as the GPIO device holds it (R31): whether the pin is an output, and its level. -/
structure Line where
  isOutput : Bool
  level : Level
  deriving DecidableEq, Repr, Inhabited

end Sys2Proof
end

