-- ==== Sys2Proof/Syntax.lean ====
section
/-! DEFINITION. The command set (spec/30_encoding.md R72), the names under which a word is refused (R73, R74), and
the assembler's source line (R76). -/

namespace Sys2Proof

/-- The twelve commands of spec/opcode_table.json. Each operand has exactly the width the spec gives it (R7, R71),
so every term of this type can be encoded; range checks stand where operands are still numbers
(`SourceLine.wellFormed`). -/
inductive Instr where
  /-- INIT: select the output pin (R150). -/
  | init (pin : Pin)
  /-- SEND: transmit a telegram three times (R152). -/
  | send (hc : HomeCode) (a : Byte) (c : Byte)
  /-- SWITCH: switch a receiver off or on; `on` is the flag bit `F` (R155). -/
  | switch (hc : HomeCode) (a : Byte) (on : Bool)
  /-- TOGGLE: toggle a receiver (R156). -/
  | toggle (hc : HomeCode) (a : Byte)
  /-- DIM: forward a toggle when the level is small enough (R157). -/
  | dim (hc : HomeCode) (a : Byte) (level : Byte)
  /-- CLEAR: empty the buffer (R90). -/
  | clear
  /-- PUSH.0: append a data 0 (R92). -/
  | push0
  /-- PUSH.1: append a data 1 (R93). -/
  | push1
  /-- PUSH.END: append the END-MARKER (R94). -/
  | pushEnd
  /-- WRITEBYTE: push eight bits and a parity bit (R114). -/
  | writeByte (v : Byte)
  /-- ASSEMBLE: build one telegram in the buffer (R115). -/
  | assemble (hc : HomeCode) (a : Byte) (c : Byte)
  /-- TRANSMIT: send the buffer up to the first END-MARKER (R133). -/
  | transmit
  deriving DecidableEq, Repr

/-- Why a command word is illegal: the four refusals of `Decode` (R73) in the order it makes them. The block itself
records only `ILLEGAL_COMMAND` (R180); the reason is the decoder's own diagnosis. -/
inductive Illegal where
  /-- The opcode is 0x0, 0x6, 0x7, 0xD, 0xE or 0xF. -/
  | reservedOpcode
  /-- The reserved field `Z` is not 0. -/
  | reservedFieldSet
  /-- A field the operation does not use is not 0. -/
  | unusedFieldSet
  /-- PUSH with a `B` other than 0x00, 0x01 and 0x02. -/
  | unknownSymbolCode
  deriving DecidableEq, Repr

/-- The mnemonics of the assembler (R76). -/
inductive Mnemonic where
  | init | send | switch | toggle | dim | clear | push0 | push1 | pushEnd | writeByte | assemble | transmit
  deriving DecidableEq, Repr

/-- One line of assembler source (R76): a mnemonic and its operands, which are unsigned numbers of any size until
the assembler has checked them. -/
structure SourceLine where
  mnemonic : Mnemonic
  operands : List Nat
  deriving DecidableEq, Repr

end Sys2Proof
end

