-- ==== Sys2Proof/WellFormed.lean ====
section
/-! DEFINITION. Which assembler source lines are well formed (spec/30_encoding.md R76): as many operands as the
mnemonic takes, each in its range. "An operand out of its range cannot be encoded, and an assembler refuses it."
A term of `Instr` needs no such check: its operands' types are their ranges. -/

namespace Sys2Proof

/-- The largest value of each operand of a mnemonic, in the order R76 writes the operands. -/
def Mnemonic.operandLimits : Mnemonic → List Nat
  | .init => [0xFF]
  | .send => [0xFFFF, 0xFF, 0xFF]
  | .switch => [0xFFFF, 0xFF, 1]
  | .toggle => [0xFFFF, 0xFF]
  | .dim => [0xFFFF, 0xFF, 0xFF]
  | .clear => []
  | .push0 => []
  | .push1 => []
  | .pushEnd => []
  | .writeByte => [0xFF]
  | .assemble => [0xFFFF, 0xFF, 0xFF]
  | .transmit => []

/-- Operands against their limits: one operand for each limit, none above it. -/
def withinLimits : List Nat → List Nat → Bool
  | [], [] => true
  | v :: vs, m :: ms => decide (v ≤ m) && withinLimits vs ms
  | _, _ => false

/-- The line can be encoded (R76). -/
def SourceLine.wellFormed (l : SourceLine) : Bool :=
  withinLimits l.operands l.mnemonic.operandLimits

end Sys2Proof
end

