-- ==== Sys2Proof/Decode.lean ====
section
/-! DEFINITION. Decoding and encoding of command words (spec/30_encoding.md R70 to R75) and the assembler's syntax
(R76). The decoder is total over all 2^40 words and refuses by name. -/

namespace Sys2Proof

/-! ## Fields of `CMD40` (R70) -/

/-- `OP` = `w[39:36]`. -/
def opField (w : CmdWord) : BitVec 4 := w.extractLsb 39 36

/-- `HC` = `w[35:20]`. -/
def hcField (w : CmdWord) : HomeCode := w.extractLsb 35 20

/-- `AD` = `w[19:12]`. -/
def adField (w : CmdWord) : Byte := w.extractLsb 19 12

/-- `B` = `w[11:4]`. -/
def bField (w : CmdWord) : Byte := w.extractLsb 11 4

/-- `Z` = `w[3:1]`, reserved. -/
def zField (w : CmdWord) : BitVec 3 := w.extractLsb 3 1

/-- `F` = `w[0]`. -/
def fField (w : CmdWord) : Bool := w.getLsbD 0

/-! ## Decoding (R73) -/

/-- `UsedMask(op)`, or none for an opcode that no operation has. -/
def usedMask (op : BitVec 4) : Option CmdWord :=
  match op.toNat with
  | 0x1 => some 0x0000000FF0#40
  | 0x2 => some 0x0FFFFFFFF0#40
  | 0x3 => some 0x0FFFFFF001#40
  | 0x4 => some 0x0FFFFFF000#40
  | 0x5 => some 0x0FFFFFFFF0#40
  | 0x8 => some 0x0000000000#40
  | 0x9 => some 0x0000000FF0#40
  | 0xA => some 0x0000000FF0#40
  | 0xB => some 0x0FFFFFFFF0#40
  | 0xC => some 0x0000000000#40
  | _ => none

/-- PUSH by its symbol code operand (R72). -/
def pushOf (b : Byte) : Except Illegal Instr :=
  match b.toNat with
  | 0x00 => .ok .push0
  | 0x01 => .ok .push1
  | 0x02 => .ok .pushEnd
  | _ => .error .unknownSymbolCode

/-- The opcode map (R72): the operation of an opcode with the operands its used fields carry. -/
def operationOf (op : BitVec 4) (hc : HomeCode) (a b : Byte) (f : Bool) : Except Illegal Instr :=
  match op.toNat with
  | 0x1 => .ok (.init b)
  | 0x2 => .ok (.send hc a b)
  | 0x3 => .ok (.switch hc a f)
  | 0x4 => .ok (.toggle hc a)
  | 0x5 => .ok (.dim hc a b)
  | 0x8 => .ok .clear
  | 0x9 => pushOf b
  | 0xA => .ok (.writeByte b)
  | 0xB => .ok (.assemble hc a b)
  | 0xC => .ok .transmit
  | _ => .error .reservedOpcode

/-- `Decode(w)` (R73): the checks in the rule's order. -/
def decode (w : CmdWord) : Except Illegal Instr :=
  match usedMask (opField w) with
  | none => .error .reservedOpcode
  | some used =>
    if zField w ≠ 0#3 then .error .reservedFieldSet
    else if w &&& ~~~(0xF000000000#40 ||| used) ≠ 0#40 then .error .unusedFieldSet
    else operationOf (opField w) (hcField w) (adField w) (bField w) (fField w)

/-! ## Encoding (R70, R76) -/

/-- The word `{OP, HC, AD, B, 0b000, F}`. -/
def cmdWord (op : BitVec 4) (hc : HomeCode) (a b : Byte) (f : Bool) : CmdWord :=
  op ++ hc ++ a ++ b ++ 0#3 ++ BitVec.ofBool f

/-- The word of an instruction: its operands in their fields and 0 in every unused field (R76). -/
def encode : Instr → CmdWord
  | .init pin => cmdWord 0x1 0 0 pin false
  | .send hc a c => cmdWord 0x2 hc a c false
  | .switch hc a on => cmdWord 0x3 hc a 0 on
  | .toggle hc a => cmdWord 0x4 hc a 0 false
  | .dim hc a level => cmdWord 0x5 hc a level false
  | .clear => cmdWord 0x8 0 0 0 false
  | .push0 => cmdWord 0x9 0 0 0x00 false
  | .push1 => cmdWord 0x9 0 0 0x01 false
  | .pushEnd => cmdWord 0x9 0 0 0x02 false
  | .writeByte v => cmdWord 0xA 0 0 v false
  | .assemble hc a c => cmdWord 0xB hc a c false
  | .transmit => cmdWord 0xC 0 0 0 false

/-! ## The host's numbering of a table row -/

/-- The command word whose bits are `w`, of which the table gives `nbits`: the bits above `nbits` are 0. A command is
ONE word of 40 bits (R75), so the table's bit numbers are the word's own. -/
def tableWord (nbits w : Nat) : CmdWord := BitVec.ofNat 40 (w % 2 ^ nbits)

/-- What the decoder reads from the table's word `w`. -/
def decodeTableWord (nbits w : Nat) : Option Instr :=
  match decode (tableWord nbits w) with
  | .ok i => some i
  | .error _ => none

/-! ## Assembler syntax (R76) -/

/-- The source line that assembles to an instruction. -/
def sourceLine : Instr → SourceLine
  | .init pin => ⟨.init, [pin.toNat]⟩
  | .send hc a c => ⟨.send, [hc.toNat, a.toNat, c.toNat]⟩
  | .switch hc a on => ⟨.switch, [hc.toNat, a.toNat, on.toNat]⟩
  | .toggle hc a => ⟨.toggle, [hc.toNat, a.toNat]⟩
  | .dim hc a level => ⟨.dim, [hc.toNat, a.toNat, level.toNat]⟩
  | .clear => ⟨.clear, []⟩
  | .push0 => ⟨.push0, []⟩
  | .push1 => ⟨.push1, []⟩
  | .pushEnd => ⟨.pushEnd, []⟩
  | .writeByte v => ⟨.writeByte, [v.toNat]⟩
  | .assemble hc a c => ⟨.assemble, [hc.toNat, a.toNat, c.toNat]⟩
  | .transmit => ⟨.transmit, []⟩

/-- The instruction a mnemonic and its operands name, the operands taken at their fields' widths. -/
def instrOf : Mnemonic → List Nat → Option Instr
  | .init, [pin] => some (.init (BitVec.ofNat 8 pin))
  | .send, [hc, a, c] => some (.send (BitVec.ofNat 16 hc) (BitVec.ofNat 8 a) (BitVec.ofNat 8 c))
  | .switch, [hc, a, on] => some (.switch (BitVec.ofNat 16 hc) (BitVec.ofNat 8 a) (on == 1))
  | .toggle, [hc, a] => some (.toggle (BitVec.ofNat 16 hc) (BitVec.ofNat 8 a))
  | .dim, [hc, a, level] => some (.dim (BitVec.ofNat 16 hc) (BitVec.ofNat 8 a) (BitVec.ofNat 8 level))
  | .clear, [] => some .clear
  | .push0, [] => some .push0
  | .push1, [] => some .push1
  | .pushEnd, [] => some .pushEnd
  | .writeByte, [v] => some (.writeByte (BitVec.ofNat 8 v))
  | .assemble, [hc, a, c] => some (.assemble (BitVec.ofNat 16 hc) (BitVec.ofNat 8 a) (BitVec.ofNat 8 c))
  | .transmit, [] => some .transmit
  | _, _ => none

/-- Assembling a source line: a line with an operand out of its range is refused (R76). -/
def assembleLine (l : SourceLine) : Option Instr :=
  if l.wellFormed then instrOf l.mnemonic l.operands else none

/-- A digit's value in a base of at most 16; both cases of a letter are taken. -/
def digitValue (base : Nat) (c : Char) : Option Nat :=
  let n := c.toNat
  let v :=
    if 0x30 ≤ n ∧ n ≤ 0x39 then n - 0x30
    else if 0x41 ≤ n ∧ n ≤ 0x46 then n - 0x41 + 10
    else if 0x61 ≤ n ∧ n ≤ 0x66 then n - 0x61 + 10
    else 16
  if v < base then some v else none

/-- Digits, the most significant first, added to the value read so far. -/
def digitsValue (base : Nat) : Nat → List Char → Option Nat
  | acc, [] => some acc
  | acc, c :: cs =>
    match digitValue base c with
    | some v => digitsValue base (acc * base + v) cs
    | none => none

/-- An operand's text: decimal, or hexadecimal after `0x` (R76). -/
def numberOf : List Char → Option Nat
  | [] => none
  | '0' :: 'x' :: c :: cs => digitsValue 16 0 (c :: cs)
  | c :: cs => digitsValue 10 0 (c :: cs)

/-- A mnemonic's text (R76). -/
def mnemonicOf (cs : List Char) : Option Mnemonic :=
  if cs = ['I', 'N', 'I', 'T'] then some .init
  else if cs = ['S', 'E', 'N', 'D'] then some .send
  else if cs = ['S', 'W', 'I', 'T', 'C', 'H'] then some .switch
  else if cs = ['T', 'O', 'G', 'G', 'L', 'E'] then some .toggle
  else if cs = ['D', 'I', 'M'] then some .dim
  else if cs = ['C', 'L', 'E', 'A', 'R'] then some .clear
  else if cs = ['P', 'U', 'S', 'H', '.', '0'] then some .push0
  else if cs = ['P', 'U', 'S', 'H', '.', '1'] then some .push1
  else if cs = ['P', 'U', 'S', 'H', '.', 'E', 'N', 'D'] then some .pushEnd
  else if cs = ['W', 'R', 'I', 'T', 'E', 'B', 'Y', 'T', 'E'] then some .writeByte
  else if cs = ['A', 'S', 'S', 'E', 'M', 'B', 'L', 'E'] then some .assemble
  else if cs = ['T', 'R', 'A', 'N', 'S', 'M', 'I', 'T'] then some .transmit
  else none

/-- The text without the spaces at its two ends. -/
def trimSpaces (cs : List Char) : List Char :=
  ((cs.dropWhile (· == ' ')).reverse.dropWhile (· == ' ')).reverse

/-- The pieces of a text between its commas. -/
def splitCommas : List Char → List (List Char)
  | [] => [[]]
  | c :: cs =>
    if c == ',' then [] :: splitCommas cs
    else
      match splitCommas cs with
      | [] => [[c]]
      | p :: ps => (c :: p) :: ps

/-- Every operand's text read as a number, or none if one of them is no number. -/
def numbersOf : List (List Char) → Option (List Nat)
  | [] => some []
  | p :: ps =>
    match numberOf (trimSpaces p), numbersOf ps with
    | some n, some ns => some (n :: ns)
    | _, _ => none

/-- A line's text: "the mnemonic, then its operands separated by commas" (R76). Spaces around the mnemonic and the
operands are skipped (DESIGN CHOICE, notes/assumptions/13.md). -/
def parseLine (text : List Char) : Option SourceLine :=
  let t := trimSpaces text
  let rest := trimSpaces (t.dropWhile (· != ' '))
  match mnemonicOf (t.takeWhile (· != ' ')) with
  | none => none
  | some m =>
    if rest = [] then some ⟨m, []⟩
    else
      match numbersOf (splitCommas rest) with
      | some ns => some ⟨m, ns⟩
      | none => none

end Sys2Proof
end

