-- ==== Sys2Proof/Config.lean ====
section
/-! DEFINITION. The implementation parameters of spec/00_scope.md R6, each with the value the table gives for this
hardware (spec/93_implementation_defined.md I1). `INITIAL_LINE` is OPEN there: it is an opaque constant here, so no
proof can see its value. -/

namespace Sys2Proof

/-- `CAPACITY`: number of slots in the bit buffer. -/
def Config.capacity : Nat := 96

/-- `SYNC_LEN`: number of zero bits in the preamble. -/
def Config.syncLen : Nat := 12

/-- `CHECKSUM_SEED`: constant added into the checksum. -/
def Config.checksumSeed : Byte := 0x06

/-- `T0_HIGH_US`: high time of a 0 symbol, in microseconds. -/
def Config.t0HighUs : Nat := 400

/-- `T0_LOW_US`: low time of a 0 symbol, in microseconds. -/
def Config.t0LowUs : Nat := 400

/-- `T1_HIGH_US`: high time of a 1 symbol, in microseconds. -/
def Config.t1HighUs : Nat := 600

/-- `T1_LOW_US`: low time of a 1 symbol, in microseconds. -/
def Config.t1LowUs : Nat := 600

/-- `REPEATS`: telegram repetitions per send. -/
def Config.repeats : Nat := 3

/-- `GAP_US`: delay between repetitions, in microseconds. -/
def Config.gapUs : Nat := 8000

/-- `CMD_OFF`: command byte for switch off. -/
def Config.cmdOff : Byte := 0x00

/-- `CMD_ON`: command byte for switch on. -/
def Config.cmdOn : Byte := 0x10

/-- `CMD_TOGGLE`: command byte for toggle. -/
def Config.cmdToggle : Byte := 0x12

/-- `DIM_MAX`: largest dim level forwarded. -/
def Config.dimMax : Byte := 0x10

/-- `PIN_W`: width in bits of a pin identifier. -/
def Config.pinW : Nat := 8

/-- `SYM_W`: width in bits of a stored symbol. -/
def Config.symW : Nat := 2

/-- `CMD_W`: width in bits of a command word. -/
def Config.cmdW : Nat := 40

/-- `INITIAL_LINE` (OPEN, spec/92_eei_decisions.md D20): direction and level of each pin's line before the block
first drives it. A free value: it has no body. -/
opaque Config.initialLine : Pin → Line

end Sys2Proof
end

