-- ==== Sys2Proof/Machine/State.lean ====
section
/-! DEFINITION. The state of one block (spec/10_state.md R20 to R32) with the block's observation (spec/00_scope.md
R14) and the host's pending command words (spec/30_encoding.md R70), the reasons a step can stop, and reset. -/

namespace Sys2Proof.Machine

/-! ## Symbol codes and the bit buffer (R21, R60) -/

/-- `SYM_ZERO`: data bit 0. -/
def symZero : Symbol := 0b00

/-- `SYM_ONE`: data bit 1. -/
def symOne : Symbol := 0b01

/-- `SYM_END`: the END-MARKER. -/
def symEnd : Symbol := 0b10

/-- The reserved code, which no command writes. -/
def symReserved : Symbol := 0b11

/-- The bit buffer `BUF`, the block's only memory (R40): the slots that do not hold `SYM_ZERO`, by slot index. -/
abbrev Memory := List (Nat × Symbol)

/-- What a slot that is not listed holds: `SYM_ZERO`, the clear and reset value (R21, R90). -/
def unlistedSymbol : Symbol := symZero

/-- The canonical form: slot indices strictly rising and inside the address space 0..`CAPACITY`-1 (R40), and no
entry equal to what an unlisted slot holds. Equal buffers are then equal lists. -/
abbrev Memory.wf (m : Memory) : Prop :=
  m.Pairwise (fun c d => c.1 < d.1) ∧ ∀ c ∈ m, c.1 < Config.capacity ∧ c.2 ≠ unlistedSymbol

/-! ## Events (R10) -/

/-- The three kinds of external event. -/
inductive Event where
  /-- Make pin `p` an output. -/
  | setDirOut (p : Pin)
  /-- Drive pin `p` to level `l`. -/
  | writeLevel (p : Pin) (l : Level)
  /-- Wait `us` microseconds. -/
  | sleep (us : Nat)
  deriving DecidableEq, Repr

/-! ## Status (R25, R28) -/

/-- The contents of the 2-bit register `FAULT` (R25, R180). -/
inductive FaultCode where
  /-- Code 0, `NONE`. -/
  | noFault
  /-- Code 1, `ILLEGAL_COMMAND`. -/
  | illegalCommand
  /-- Code 2, `NOT_INITIALISED`. -/
  | notInitialised
  /-- Code 3, `RESERVED_SYMBOL`. -/
  | reservedSymbol
  deriving DecidableEq, Repr

/-- The sequencer mode `MODE` (R28). -/
inductive Mode where
  | idle
  | busy
  deriving DecidableEq, Repr

/-! ## The state -/

/-- Everything the spec gives one block instance (R20), then the observation R14 names and the host's words. -/
structure State where
  /-- `BUF` (R21). -/
  buf : Memory
  /-- `IDX`, the buffer's write index, 0..96 (R22). -/
  idx : SlotIx
  /-- `PIN`: "a model should hold `PIN` as 'no value' until INIT writes it, not as 0" (R23). -/
  pin : Option Pin
  /-- `PIN_VALID` (R24). -/
  pinValid : Bool
  /-- `FAULT` (R25). -/
  fault : FaultCode
  /-- `HC_HI` (R26). -/
  hcHi : Byte
  /-- `HC_LO` (R26). -/
  hcLo : Byte
  /-- `ADDR` (R26). -/
  addr : Byte
  /-- `CMD` (R26). -/
  cmd : Byte
  /-- `CSUM` (R26). -/
  csum : Byte
  /-- `TX_PTR`, the transmitter's slot pointer, 0..96 (R27). -/
  txPtr : SlotIx
  /-- `MODE` (R28). -/
  mode : Mode
  /-- `REP`, the repetition counter, 0..2 (R29). -/
  rep : BitVec 2
  /-- The output trace, oldest event first (R10, R14). The model's own field: the block's observation. -/
  trace : List Event
  /-- The responses given so far, oldest first (R14, R151). The model's own field: the block's observation. -/
  responses : List Bool
  /-- The words the host has still to present on the command port, the next one first (R70, R213). The model's own
  field: the host's side of the port; the block stores no command (R53). -/
  port : List CmdWord
  deriving DecidableEq, Repr

/-! ## Reasons to stop -/

/-- Why a step has no next state. -/
inductive Fault where
  /-- Raised by the command port while `FAULT` is not `NONE`: the block is halted and takes no command until reset
  (R181). Safe: the spec gives the halted block no move. -/
  | halted (code : FaultCode)
  /-- Raised by the command port while `MODE` is `BUSY`: the port has no move (R210, I7). Safe: at command
  granularity no step leaves the block `BUSY`. -/
  | portBusy
  deriving DecidableEq, Repr

/-- Why an instruction has no meaning in this model. -/
inductive Refusal where
  /-- Raised by `exec` for a command that has no meaning yet; no command is left so. Safe. -/
  | notModelled (mnemonic : String)
  deriving DecidableEq, Repr

/-! ## Reset -/

/-- The block right after reset (R32, R200), with nothing emitted, no response given and no word presented. The
operand latches have no reset value in the spec and hold 0 here (DESIGN CHOICE, notes/assumptions/1.md). -/
def State.reset : State where
  buf := []
  idx := 0
  pin := none
  pinValid := false
  fault := .noFault
  hcHi := 0
  hcLo := 0
  addr := 0
  cmd := 0
  csum := 0
  txPtr := 0
  mode := .idle
  rep := 0
  trace := []
  responses := []
  port := []

end Sys2Proof.Machine
end

