-- ==== Sys2Proof/Machine/Ops.lean ====
section
/-! DEFINITION. The named operations over the buffer and the registers, raising a fault, and reset as the only way
out of one. A fault of this block has no handler and no return (spec/60_exceptions.md R188). -/

namespace Sys2Proof.Machine

/-! ## Buffer access (spec/20_memory.md R40, R41) -/

/-- `BUF[a]`, `MemRead(a, 1)` (spec/00_scope.md R9). -/
def Memory.read : Memory → Nat → Symbol
  | [], _ => unlistedSymbol
  | (b, x) :: m, a => if a = b then x else Memory.read m a

/-- `BUF[a] <- v`, `MemWrite(a, 1, v)`: keeps the canonical form. -/
def Memory.write : Memory → Nat → Symbol → Memory
  | [], a, v => if v = unlistedSymbol then [] else [(a, v)]
  | (b, x) :: m, a, v =>
    if a < b then
      if v = unlistedSymbol then (b, x) :: m else (a, v) :: (b, x) :: m
    else if a = b then
      if v = unlistedSymbol then m else (a, v) :: m
    else (b, x) :: Memory.write m a v

/-- Every slot at `SYM_ZERO`: the whole of CLEAR's loop, whose order no command can observe (R41). -/
def Memory.cleared : Memory := []

/-! ## Registers and observation -/

/-- `BUF <- m` and `IDX <- i` together: the buffer's two parts move in step (R22). -/
def setBuffer (m : Memory) (i : SlotIx) (s : State) : State := { s with buf := m, idx := i }

/-- INIT's two writes: `PIN <- p` and `PIN_VALID <- 1` (R23, R24). -/
def setPin (p : Pin) (s : State) : State := { s with pin := some p, pinValid := true }

/-- Reading `PIN` behind the check that guards every read (R183, I12): its value where `PIN_VALID` is 1 and INIT has
written one, and none otherwise, where a command that needs it raises `NOT_INITIALISED` instead of reading. That the
check covers a `PIN` without a value beside a `PIN_VALID` of 1, a state no run reaches, is DEDUCED,
notes/assumptions/6.md. -/
def selectedPin (s : State) : Option Pin := if s.pinValid then s.pin else none

/-- The five operand latches (R26). -/
def setLatches (hi lo a c cs : Byte) (s : State) : State :=
  { s with hcHi := hi, hcLo := lo, addr := a, cmd := c, csum := cs }

/-- `ptr <- i` (R27). -/
def setTxPtr (i : SlotIx) (s : State) : State := { s with txPtr := i }

/-- `REP <- r` (R29). -/
def setRep (r : BitVec 2) (s : State) : State := { s with rep := r }

/-- `Emit` of each event of a list in order (R10, R50). -/
def emit (es : List Event) (s : State) : State := { s with trace := s.trace ++ es }

/-- `respond b` (R151). -/
def respond (b : Bool) (s : State) : State := { s with responses := s.responses ++ [b] }

/-- `MODE <- m` (R28). -/
def setMode (m : Mode) (s : State) : State := { s with mode := m }

/-- The host's words that are still to be presented. -/
def setPort (ws : List CmdWord) (s : State) : State := { s with port := ws }

/-! ## Raising a fault (spec/00_scope.md R11; spec/60_exceptions.md R180, R181) -/

/-- The 2-bit code `FAULT` holds (R180). -/
def faultCodeBits : FaultCode → BitVec 2
  | .noFault => 0
  | .illegalCommand => 1
  | .notInitialised => 2
  | .reservedSymbol => 3

/-- `FAULT <- c`. -/
def setFault (c : FaultCode) (s : State) : State := { s with fault := c }

/-- How the pseudocode of a command ends: at its end or at a raised fault. -/
inductive CmdResult where
  /-- The command ran to its end. -/
  | done (s : State)
  /-- The command ended at a raised fault, with `FAULT` written. -/
  | raised (s : State)
  deriving DecidableEq, Repr

/-- `raise Fault(c)`: write `FAULT` and end the command (R11). -/
def raise (c : FaultCode) (s : State) : CmdResult := .raised (setFault c s)

/-- Sequencing: what follows runs only if the command has not ended at a fault (R181). -/
def CmdResult.andThen (r : CmdResult) (k : State → CmdResult) : CmdResult :=
  match r with
  | .done s => k s
  | .raised s => .raised s

/-- The outcome of a command as one transition (spec/70_reset_and_hazards.md R210). A raised fault is a next state,
with `FAULT` written: the halt that follows is the port's (R181). -/
def CmdResult.outcome : CmdResult → Host.Outcome State Fault Refusal
  | .done s => .next s
  | .raised s => .next s

/-! ## Reset by the host (spec/70_reset_and_hazards.md R200, R201) -/

/-- A reset of the block during the machine's life, which the host may give while the block is `IDLE` or halted: every
element of the block's state at its reset value, no event, the line untouched. The observation and the host's words
are not the block's state and stay. -/
def hostReset (s : State) : State :=
  { State.reset with trace := s.trace, responses := s.responses, port := s.port }

end Sys2Proof.Machine
end

