-- ==== Sys2Proof/Machine/Buffer.lean ====
section
/-! DEFINITION. The bit-buffer sequencer (spec/40_buffer.md): the push primitive, CLEAR, PUSH.0, PUSH.1, PUSH.END. -/

namespace Sys2Proof.Machine

/-- `Push(v)`: append a symbol, or drop it silently if the buffer is full (R91). -/
def push (v : Symbol) (s : State) : State :=
  if s.idx.toNat < Config.capacity then setBuffer (s.buf.write s.idx.toNat v) (s.idx + 1) s else s

/-- A sequence of pushes, the first symbol first. -/
def pushAll : List Symbol → State → State
  | [], s => s
  | v :: vs, s => pushAll vs (push v s)

/-- CLEAR's pseudocode: every slot to `SYM_ZERO` and `IDX` to 0 (R90). -/
def clearBuffer (s : State) : State := setBuffer Memory.cleared 0 s

/-- CLEAR (R90). -/
def execClear (s : State) : Host.Outcome State Fault Refusal := .next (clearBuffer s)

/-- PUSH.0 (R92). -/
def execPush0 (s : State) : Host.Outcome State Fault Refusal := .next (push symZero s)

/-- PUSH.1 (R93). -/
def execPush1 (s : State) : Host.Outcome State Fault Refusal := .next (push symOne s)

/-- PUSH.END (R94). -/
def execPushEnd (s : State) : Host.Outcome State Fault Refusal := .next (push symEnd s)

end Sys2Proof.Machine
end

