-- ==== Sys2Proof/Machine/Operands.lean ====
section
/-! DEFINITION. How a command's operands become the values it works on: the home code's two bytes
(spec/41_encoder.md R112), a byte's bits in transmission order (spec/20_memory.md R44), the symbol of a data bit
(R46) and the command byte of SWITCH (spec/43_orchestrator.md R155). -/

namespace Sys2Proof.Machine

/-- `homeCodeHigh` = `hc[15:8]` (R112). -/
def homeCodeHigh (hc : HomeCode) : Byte := hc.extractLsb 15 8

/-- `homeCodeLow` = `hc[7:0]` (R112). -/
def homeCodeLow (hc : HomeCode) : Byte := hc.extractLsb 7 0

/-- The symbol of a data bit: `SYM_ONE` for 1 and `SYM_ZERO` for 0 (R46). -/
def dataSymbol (b : Bool) : Symbol := if b then symOne else symZero

/-- The bits of a byte from position 7 down to 0 (R44). -/
def bitsMsbFirst (v : Byte) : List Bool :=
  [v.getLsbD 7, v.getLsbD 6, v.getLsbD 5, v.getLsbD 4, v.getLsbD 3, v.getLsbD 2, v.getLsbD 1, v.getLsbD 0]

/-- The command byte of SWITCH: `CMD_ON` or `CMD_OFF` (R155). -/
def switchCommand (on : Bool) : Byte := if on then Config.cmdOn else Config.cmdOff

end Sys2Proof.Machine
end

