-- ==== Sys2Proof/Machine/Flags.lean ====
section
/-! DEFINITION. The computed check values. The block has no flags or condition codes (spec/10_state.md R30); what it
computes over data is the parity bit (spec/41_encoder.md R110) and the checksum (R111). -/

namespace Sys2Proof.Machine

/-- `popcount(v)`: the number of 1 bits in a byte (spec/00_scope.md R8). -/
def popcount (v : Byte) : Nat := (bitsMsbFirst v).count true

/-- `parity(v)` = `popcount(v) mod 2`: 1 when the byte has an odd number of 1 bits, so that the nine bits together
have an even number (R110; spec/90_conflicts.md C1). -/
def parity (v : Byte) : Bool := popcount v % 2 == 1

/-- `checksum(hc, a, c)`: the 8-bit sum with wrap-around (R111). -/
def checksum (hc : HomeCode) (a c : Byte) : Byte :=
  Config.checksumSeed + homeCodeHigh hc + homeCodeLow hc + a + c

end Sys2Proof.Machine
end

