-- ==== Sys2Proof/Machine/Encoder.lean ====
section
/-! DEFINITION. The telegram encoder (spec/41_encoder.md): WRITEBYTE and ASSEMBLE. -/

namespace Sys2Proof.Machine

/-- The nine symbols of a byte: its bits, most significant first, then its parity bit (R114). -/
def byteSymbols (v : Byte) : List Symbol := (bitsMsbFirst v).map dataSymbol ++ [dataSymbol (parity v)]

/-- `WriteByte(v)`: always nine pushes (R114). -/
def writeByte (v : Byte) (s : State) : State := pushAll (byteSymbols v) s

/-- The latches as ASSEMBLE loads them, before the clear (R112, R111, R115). -/
def loadLatches (hc : HomeCode) (a c : Byte) (s : State) : State :=
  setLatches (homeCodeHigh hc) (homeCodeLow hc) a c (checksum hc a c) s

/-- `Assemble(hc, a, c)`: the source's steps 1 to 9 in order, reading the latches (R115). The
latches keep these values after the command, where I13 leaves them any value: DESIGN CHOICE, notes/assumptions/18.md. -/
def assembleTelegram (hc : HomeCode) (a c : Byte) (s0 : State) : State :=
  let s := loadLatches hc a c s0
  let s1 := clearBuffer s
  let s2 := pushAll (List.replicate Config.syncLen symZero) s1
  let s3 := push symOne s2
  let s4 := writeByte s.hcLo (writeByte s.hcHi s3)
  let s5 := writeByte s.addr s4
  let s6 := writeByte s.cmd s5
  let s7 := writeByte s.csum s6
  let s8 := push symZero s7
  push symEnd s8

/-- WRITEBYTE (R114). -/
def execWriteByte (v : Byte) (s : State) : Host.Outcome State Fault Refusal := .next (writeByte v s)

/-- ASSEMBLE (R115). -/
def execAssemble (hc : HomeCode) (a c : Byte) (s : State) : Host.Outcome State Fault Refusal :=
  .next (assembleTelegram hc a c s)

end Sys2Proof.Machine
end

