-- ==== Sys2Proof/Machine/Transmit.lean ====
section
/-! DEFINITION. The waveform transmitter (spec/42_transmit.md): the line code and TRANSMIT. -/

namespace Sys2Proof.Machine

/-- `SendSymbol(v, p)`: the four events of a data symbol; the other two codes are never passed to it (R130). -/
def symbolEvents (p : Pin) (v : Symbol) : List Event :=
  if v = symZero then
    [.writeLevel p .high, .sleep Config.t0HighUs, .writeLevel p .low, .sleep Config.t0LowUs]
  else if v = symOne then
    [.writeLevel p .high, .sleep Config.t1HighUs, .writeLevel p .low, .sleep Config.t1LowUs]
  else []

/-- TRANSMIT's loop, `while TX_PTR < CAPACITY` (R133), on the selected pin, for at most the given number of rounds. -/
def walkBuffer (p : Pin) : Nat → State → CmdResult
  | 0, s => .done s
  | rounds + 1, s =>
    if s.txPtr.toNat < Config.capacity then
      let v := s.buf.read s.txPtr.toNat
      if v = symEnd then .done s
      else if v = symReserved then raise .reservedSymbol s
      else walkBuffer p rounds (setTxPtr (s.txPtr + 1) (emit (symbolEvents p v) s))
    else .done s

/-- TRANSMIT's pseudocode (R133): the empty-buffer test (R132), the `PIN_VALID` check (R183), then the walk from slot
0. The pointer rises by one each round, so `CAPACITY` rounds are all the loop can take. -/
def transmitBuffer (s : State) : CmdResult :=
  if s.idx = 0 then .done s
  else
    match selectedPin s with
    | none => raise .notInitialised s
    | some p => walkBuffer p Config.capacity (setTxPtr 0 s)

/-- TRANSMIT (R133). -/
def execTransmit (s : State) : Host.Outcome State Fault Refusal := (transmitBuffer s).outcome

end Sys2Proof.Machine
end

