-- ==== Sys2Proof/Machine/Orchestrator.lean ====
section
/-! DEFINITION. The send orchestrator and the public commands (spec/43_orchestrator.md): INIT, SEND, SWITCH, TOGGLE,
DIM. -/

namespace Sys2Proof.Machine

/-- The repetitions of a SEND that are still to run (R152): in each, assemble, transmit, and wait `GAP_US` unless it
is the last. `REP` counts them from 0. -/
def sendRepetitions (hc : HomeCode) (a c : Byte) : Nat → State → CmdResult
  | 0, s => .done s
  | left + 1, s =>
    let s1 := assembleTelegram hc a c (setRep (BitVec.ofNat 2 (Config.repeats - (left + 1))) s)
    (transmitBuffer s1).andThen fun s2 =>
      sendRepetitions hc a c left
        (if s2.rep.toNat < Config.repeats - 1 then emit [.sleep Config.gapUs] s2 else s2)

/-- SEND's pseudocode (R152). -/
def sendTelegram (hc : HomeCode) (a c : Byte) (s : State) : CmdResult :=
  match selectedPin s with
  | none => raise .notInitialised s
  | some _ => sendRepetitions hc a c Config.repeats s

/-- TOGGLE's pseudocode (R156). -/
def toggleReceiver (hc : HomeCode) (a : Byte) (s : State) : CmdResult :=
  sendTelegram hc a Config.cmdToggle s

/-- DIM's pseudocode (R157): the `PIN_VALID` check for every level, then the guard. -/
def dimReceiver (hc : HomeCode) (a level : Byte) (s : State) : CmdResult :=
  match selectedPin s with
  | none => raise .notInitialised s
  | some _ => if level ≤ Config.dimMax then toggleReceiver hc a s else .done s

/-- INIT (R150): select the pin, make it an output, respond `true`. -/
def execInit (pin : Pin) (s : State) : Host.Outcome State Fault Refusal :=
  .next (respond true (emit [.setDirOut pin] (setPin pin s)))

/-- SEND (R152). -/
def execSend (hc : HomeCode) (a c : Byte) (s : State) : Host.Outcome State Fault Refusal :=
  (sendTelegram hc a c s).outcome

/-- SWITCH (R155). -/
def execSwitch (hc : HomeCode) (a : Byte) (on : Bool) (s : State) : Host.Outcome State Fault Refusal :=
  (sendTelegram hc a (switchCommand on) s).outcome

/-- TOGGLE (R156). -/
def execToggle (hc : HomeCode) (a : Byte) (s : State) : Host.Outcome State Fault Refusal :=
  (toggleReceiver hc a s).outcome

/-- DIM (R157). -/
def execDim (hc : HomeCode) (a level : Byte) (s : State) : Host.Outcome State Fault Refusal :=
  (dimReceiver hc a level s).outcome

end Sys2Proof.Machine
end

