-- ==== Sys2Proof/Machine/Dispatch.lean ====
section
/-! DEFINITION. Which meaning each command has: one arm per constructor of `Instr`. -/

namespace Sys2Proof.Machine

def exec (i : Instr) (s : State) : Host.Outcome State Fault Refusal :=
  match i with
  | .init pin => Sys2Proof.Machine.execInit pin s
  | .send hc a c => Sys2Proof.Machine.execSend hc a c s
  | .switch hc a on => Sys2Proof.Machine.execSwitch hc a on s
  | .toggle hc a => Sys2Proof.Machine.execToggle hc a s
  | .dim hc a level => Sys2Proof.Machine.execDim hc a level s
  | .clear => Sys2Proof.Machine.execClear s
  | .push0 => Sys2Proof.Machine.execPush0 s
  | .push1 => Sys2Proof.Machine.execPush1 s
  | .pushEnd => Sys2Proof.Machine.execPushEnd s
  | .writeByte v => Sys2Proof.Machine.execWriteByte v s
  | .assemble hc a c => Sys2Proof.Machine.execAssemble hc a c s
  | .transmit => Sys2Proof.Machine.execTransmit s

end Sys2Proof.Machine
end

