-- ==== Sys2Proof/Machine/Port.lean ====
section
/-! DEFINITION. The command port (spec/30_encoding.md R70, spec/70_reset_and_hazards.md R210): when it takes a
command, what it does with a legal and an illegal word, and how a command completes. -/

namespace Sys2Proof.Machine

/-- A command is accepted: its word has been presented and the block becomes `BUSY` (R28). -/
def accept (rest : List CmdWord) (s : State) : State := setMode .busy (setPort rest s)

/-- A command has ended, at its end or at a raised fault: the block is no longer `BUSY` (R28). That this holds after a
fault too is DEDUCED, notes/assumptions/5.md. -/
def complete : Host.Outcome State Fault Refusal → Host.Outcome State Fault Refusal
  | .next s => .next (setMode .idle s)
  | .fault r => .fault r
  | .refused r => .refused r

/-- A word taken from the port: a legal one runs as one atomic command; an illegal one raises `ILLEGAL_COMMAND`
before the command does anything (R73, R182). -/
def runWord (w : CmdWord) (s : State) : Host.Outcome State Fault Refusal :=
  match decode w with
  | .ok i => exec i s
  | .error _ => (raise .illegalCommand s).outcome

/-- One move of the machine. A halted block takes no command (R181), a `BUSY` one has no move (R210), an idle one
waits until the host presents a word (R202) and then runs it. -/
def portCycle (s : State) : Host.Outcome State Fault Refusal :=
  if s.fault ≠ .noFault then .fault (.halted s.fault)
  else
    match s.mode with
    | .busy => .fault .portBusy
    | .idle =>
      match s.port with
      | [] => .next s
      | w :: rest => complete (runWord w (accept rest s))

/-- The host presents a word ahead of the words it has still to present. -/
def presentFirst (w : CmdWord) (s : State) : State := setPort (w :: s.port) s

end Sys2Proof.Machine
end

