-- ==== Sys2Proof/Machine/Step.lean ====
section
/-! DEFINITION. The machine's step, at command granularity (spec/70_reset_and_hazards.md R210), and the placing of a
command where the next step takes it. -/

namespace Sys2Proof.Machine

/-- One step: one move of the command port. -/
def step (s : State) : Host.Outcome State Fault Refusal := portCycle s

/-- The table's word `w` presented as the next command. The block fetches nothing (spec/20_memory.md R53): a command
comes from the host, and it is taken if the block is `IDLE` and not faulted, as it is after reset. -/
def State.withFetchWord (s : State) (nbits w : Nat) : State := presentFirst (tableWord nbits w) s

end Sys2Proof.Machine
end

