-- ==== Sys2Proof/Machine/Line.lean ====
section
/-! DEFINITION. The output line as the external GPIO device holds it (spec/10_state.md R31, spec/60_exceptions.md
R190): not state of the block, but a function of the trace and of the OPEN parameter `INITIAL_LINE`. -/

namespace Sys2Proof.Machine

/-- What one event does to the line of pin `p`: an event of another pin, and a wait, leave it as it was. -/
def lineAfterEvent (p : Pin) (l : Line) : Event → Line
  | .setDirOut q => if q = p then { l with isOutput := true } else l
  | .writeLevel q v => if q = p then { l with level := v } else l
  | .sleep _ => l

/-- The line of pin `p` after a trace, from the line before it: the last level written stands (R31). -/
def lineAfter (p : Pin) : Line → List Event → Line
  | l, [] => l
  | l, e :: es => lineAfter p (lineAfterEvent p l e) es

/-- The line of pin `p` now; before the first event of that pin it is `INITIAL_LINE` (R31). -/
def State.line (s : State) (p : Pin) : Line := lineAfter p (Config.initialLine p) s.trace

end Sys2Proof.Machine
end

