-- ==== Sys2Proof/Safety.lean ====
section
/-! DEFINITION. The terms in which claims about the block are stated: the telegram frame as the spec's tables give it
(spec/30_encoding.md R61, spec/20_memory.md R46, R47), written here from those tables and not from the encoder's
pseudocode; the waveform of a list of symbols; sleep time; the invariant; and the two ends of a run. -/

namespace Sys2Proof.Machine

/-! ## The telegram frame (R46, R47, R61) -/

/-- `P(x)`: the XOR of the eight bits of a byte (R110). -/
def xorOfBits (v : Byte) : Bool :=
  v.getLsbD 0 ^^ v.getLsbD 1 ^^ v.getLsbD 2 ^^ v.getLsbD 3 ^^ v.getLsbD 4 ^^ v.getLsbD 5 ^^ v.getLsbD 6 ^^ v.getLsbD 7

/-- Byte number `j` of a telegram as a number: the home code's quotient and remainder by 256, the address, the command
and the checksum (R47, R111, R112). -/
def telegramByte (hc : HomeCode) (a c : Byte) (j : Nat) : Byte :=
  if j = 0 then BitVec.ofNat 8 (hc.toNat / 256)
  else if j = 1 then BitVec.ofNat 8 (hc.toNat % 256)
  else if j = 2 then a
  else if j = 3 then c
  else BitVec.ofNat 8 ((0x06 + hc.toNat / 256 + hc.toNat % 256 + a.toNat + c.toNat) % 256)

/-- Frame bit `i` (R61): the preamble, the start marker, five groups of a byte's bits from the most significant down
and their parity, the end marker. -/
def frameBit (hc : HomeCode) (a c : Byte) (i : Nat) : Bool :=
  if i < 12 then false
  else if i = 12 then true
  else if i < 58 then
    let v := telegramByte hc a c ((i - 13) / 9)
    let k := (i - 13) % 9
    if k < 8 then v.getLsbD (7 - k) else xorOfBits v
  else false

/-- The 59 bits of a telegram, in transmission order (R61). -/
def frame (hc : HomeCode) (a c : Byte) : List Bool := (List.range 59).map (frameBit hc a c)

/-- What slot `i` holds after ASSEMBLE (R46): the frame, then the END-MARKER, then cleared slots. -/
def telegramSlot (hc : HomeCode) (a c : Byte) (i : Nat) : Symbol :=
  if i < 59 then (if frameBit hc a c i then symOne else symZero)
  else if i = 59 then symEnd
  else symZero

/-! ## Waveforms and time (R130, R136, R215) -/

/-- The four events of one frame bit on a pin (R130, R62). -/
def pulse (p : Pin) (b : Bool) : List Event :=
  if b then [.writeLevel p .high, .sleep 600, .writeLevel p .low, .sleep 600]
  else [.writeLevel p .high, .sleep 400, .writeLevel p .low, .sleep 400]

/-- The events of a sequence of frame bits. -/
def waveform (p : Pin) (bs : List Bool) : List Event := bs.flatMap (pulse p)

/-- The events of a SEND: the telegram three times, with a gap between repetitions only (R153). -/
def sendWaveform (p : Pin) (bs : List Bool) : List Event :=
  waveform p bs ++ [.sleep 8000] ++ waveform p bs ++ [.sleep 8000] ++ waveform p bs

/-- The sum of the `Sleep` arguments of a trace (R215). -/
def sleepTime : List Event → Nat
  | [] => 0
  | .sleep us :: es => us + sleepTime es
  | .setDirOut _ :: es => sleepTime es
  | .writeLevel _ _ :: es => sleepTime es

/-- Every `WriteLevel` is part of a whole pulse: `HIGH`, a `Sleep` of 400 or 600, `LOW` on the same pin, and a `Sleep`
of the same value (R130; spec/95_test_vectors.md 2.9). -/
def pulsesPaired : List Event → Bool
  | [] => true
  | .writeLevel p .high :: .sleep u :: .writeLevel q .low :: .sleep v :: es =>
    decide (p = q) && decide (u = v) && (decide (u = 400) || decide (u = 600)) && pulsesPaired es
  | .writeLevel _ _ :: _ => false
  | .setDirOut _ :: es => pulsesPaired es
  | .sleep _ :: es => pulsesPaired es

/-! ## What TRANSMIT walks over (R133) -/

/-- The 96 slots in order. -/
def slotSymbols (s : State) : List Symbol := (List.range 96).map fun i => s.buf.read i

/-- A data symbol: a 0 or a 1. -/
def isData (v : Symbol) : Bool := v == symZero || v == symOne

/-- The data symbols before the first slot that holds none, as bits. -/
def sentBits (s : State) : List Bool := ((slotSymbols s).takeWhile isData).map fun v => v == symOne

/-- The symbol the walk stops at, or none where all 96 slots hold data. -/
def stopSymbol (s : State) : Option Symbol := ((slotSymbols s).dropWhile isData).head?

/-! ## Sequences of commands (R77) -/

/-- Commands one after the other, each run only if the one before gave a next state without a fault (R181). -/
def execAll : List Instr → State → Host.Outcome State Fault Refusal
  | [], s => .next s
  | i :: is, s =>
    match exec i s with
    | .next t => if t.fault = .noFault then execAll is t else .next t
    | .fault r => .fault r
    | .refused r => .refused r

/-- PUSH of a data bit as a command: PUSH.1 or PUSH.0. -/
def pushBit (b : Bool) : Instr := if b then .push1 else .push0

/-- The commands that together do what a WRITEBYTE does (R77). -/
def writeByteCommands (v : Byte) : List Instr :=
  [pushBit (v.getLsbD 7), pushBit (v.getLsbD 6), pushBit (v.getLsbD 5), pushBit (v.getLsbD 4), pushBit (v.getLsbD 3),
    pushBit (v.getLsbD 2), pushBit (v.getLsbD 1), pushBit (v.getLsbD 0), pushBit (parity v)]

/-- The commands that together do what an ASSEMBLE does to the buffer (R77). -/
def assembleCommands (hc : HomeCode) (a c : Byte) : List Instr :=
  [.clear] ++ List.replicate 12 .push0 ++
    [.push1, .writeByte (homeCodeHigh hc), .writeByte (homeCodeLow hc), .writeByte a, .writeByte c,
      .writeByte (checksum hc a c), .push0, .pushEnd]

/-! ## The result of a send (R152, R153) -/

/-- From `s` to `t` one telegram was sent three times on pin `p`: the waveform, the buffer left assembled, the latches
loaded (that they stay so after the command is the model's choice, notes/assumptions/18.md); `TX_PTR` and `REP` have no
meaning outside the command (R27, R29) and are left open; nothing else changed. -/
def SentTelegram (hc : HomeCode) (a c : Byte) (p : Pin) (s t : State) : Prop :=
  t.trace = s.trace ++ sendWaveform p (frame hc a c) ∧
  (∀ i, t.buf.read i = telegramSlot hc a c i) ∧
  t = { s with
    trace := t.trace, buf := t.buf, idx := 60, txPtr := t.txPtr, rep := t.rep,
    hcHi := telegramByte hc a c 0, hcLo := telegramByte hc a c 1, addr := a, cmd := c,
    csum := telegramByte hc a c 4 }

/-! ## The invariant -/

/-- What holds after every command of a run from reset (R95, R22 to R24, R27 to R29, R135). -/
structure State.Inv (s : State) : Prop where
  /-- The buffer is in canonical form. -/
  bufCanonical : s.buf.wf
  /-- `0 <= IDX <= CAPACITY` (R95). -/
  idxInRange : s.idx.toNat ≤ 96
  /-- No slot holds the reserved code (R95). -/
  noReservedSlot : ∀ i, s.buf.read i ≠ symReserved
  /-- Every slot at `IDX` or above holds `SYM_ZERO` (R95). -/
  zeroFromIdx : ∀ i, s.idx.toNat ≤ i → s.buf.read i = symZero
  /-- `PIN` holds a value exactly when `PIN_VALID` is 1 (R23, R24). -/
  pinHasValue : s.pinValid = s.pin.isSome
  /-- `TX_PTR` is in 0..96 (R27). -/
  txPtrInRange : s.txPtr.toNat ≤ 96
  /-- `REP` is in 0..2 (R29). -/
  repInRange : s.rep.toNat ≤ 2
  /-- The block is `IDLE` between commands (R28). -/
  idleBetween : s.mode = .idle
  /-- `RESERVED_SYMBOL` is not reached (R135, R184). -/
  noReservedFault : s.fault ≠ .reservedSymbol

/-! ## The ends of a run (R217) -/

/-- The run has ended normally: `IDLE`, not faulted, and no further command to present. -/
def State.endsNormally (s : State) : Bool :=
  decide (s.mode = .idle) && decide (s.fault = .noFault) && s.port.isEmpty

/-- The run has ended faulted. -/
def State.endsFaulted (s : State) : Bool := decide (s.fault ≠ .noFault)

end Sys2Proof.Machine
end

