-- ==== Sys2Proof/Certificates/Slice0/Obligations.lean ====
section
/-! DEFINITION. The statements about the FS20 telegram encoder, from the numbered rules of spec/. Each names the rules it
formalises; OBLIGATIONS.json lists them with their tier and basis. -/

open Sys2Proof Sys2Proof.Machine

/-! ## Encoding (spec/30_encoding.md) -/

/-- Decoding an instruction's word gives the instruction back, every operand at every value (R70 to R72, R76). -/
def Obligations.EncodedInstructionDecodesBack : Prop :=
  ∀ i : Instr, decode (encode i) = .ok i

/-- A legal word is the encoding of the one instruction it decodes to, so no bit of it is ignored (R73, R76). -/
def Obligations.LegalWordIsTheEncodingOfItsInstruction : Prop :=
  ∀ (w : CmdWord) (i : Instr), decode w = .ok i → encode i = w

/-- Each row of spec/opcode_table.json by its mask and match: the decoder gives the row's command exactly for the words
of the row, with the operands of the row's fields (R71, R72). -/
def Obligations.DecodeFollowsTheTableRows : Prop :=
  ∀ w : CmdWord,
    (∀ p, decode w = .ok (.init p) ↔ w &&& 0xFFFFFFF00F#40 = 0x1000000000#40 ∧ w.extractLsb 11 4 = p) ∧
    (∀ hc a c, decode w = .ok (.send hc a c) ↔ w &&& 0xF00000000F#40 = 0x2000000000#40 ∧
      w.extractLsb 35 20 = hc ∧ w.extractLsb 19 12 = a ∧ w.extractLsb 11 4 = c) ∧
    (∀ hc a on, decode w = .ok (.switch hc a on) ↔ w &&& 0xF000000FFE#40 = 0x3000000000#40 ∧
      w.extractLsb 35 20 = hc ∧ w.extractLsb 19 12 = a ∧ w.getLsbD 0 = on) ∧
    (∀ hc a, decode w = .ok (.toggle hc a) ↔ w &&& 0xF000000FFF#40 = 0x4000000000#40 ∧
      w.extractLsb 35 20 = hc ∧ w.extractLsb 19 12 = a) ∧
    (∀ hc a l, decode w = .ok (.dim hc a l) ↔ w &&& 0xF00000000F#40 = 0x5000000000#40 ∧
      w.extractLsb 35 20 = hc ∧ w.extractLsb 19 12 = a ∧ w.extractLsb 11 4 = l) ∧
    (decode w = .ok .clear ↔ w = 0x8000000000#40) ∧
    (decode w = .ok .push0 ↔ w = 0x9000000000#40) ∧
    (decode w = .ok .push1 ↔ w = 0x9000000010#40) ∧
    (decode w = .ok .pushEnd ↔ w = 0x9000000020#40) ∧
    (∀ v, decode w = .ok (.writeByte v) ↔ w &&& 0xFFFFFFF00F#40 = 0xA000000000#40 ∧ w.extractLsb 11 4 = v) ∧
    (∀ hc a c, decode w = .ok (.assemble hc a c) ↔ w &&& 0xF00000000F#40 = 0xB000000000#40 ∧
      w.extractLsb 35 20 = hc ∧ w.extractLsb 19 12 = a ∧ w.extractLsb 11 4 = c) ∧
    (decode w = .ok .transmit ↔ w = 0xC000000000#40)

/-- A word is illegal exactly when it is one of the reserved and illegal encodings: a reserved opcode, `Z` not 0, a
non-zero bit in a field the operation does not use, or PUSH with a `B` other than 0x00, 0x01 and 0x02; every such word
faults with `ILLEGAL_COMMAND`; the all-zero word is one of them (R74). -/
def Obligations.ReservedEncodingsAreRefused : Prop :=
  (∀ w : CmdWord,
    (∃ e, decode w = .error e) ↔
      (let op := w.extractLsb 39 36
       let hc := w.extractLsb 35 20
       let ad := w.extractLsb 19 12
       let b := w.extractLsb 11 4
       let f := w.getLsbD 0
       op ∈ [0x0, 0x6, 0x7, 0xD, 0xE, 0xF] ∨
       w.extractLsb 3 1 ≠ 0 ∨
       (op ∈ [0x2, 0x5, 0xB] ∧ f = true) ∨
       (op = 0x3 ∧ b ≠ 0) ∨
       (op = 0x4 ∧ (b ≠ 0 ∨ f = true)) ∨
       (op ∈ [0x1, 0x9, 0xA] ∧ (hc ≠ 0 ∨ ad ≠ 0 ∨ f = true)) ∨
       (op ∈ [0x8, 0xC] ∧ (hc ≠ 0 ∨ ad ≠ 0 ∨ b ≠ 0 ∨ f = true)) ∨
       (op = 0x9 ∧ b ∉ [0x00, 0x01, 0x02]))) ∧
  (∀ (w : CmdWord) (e : Illegal) (s : State), decode w = .error e →
    runWord w s = .next { s with fault := .illegalCommand }) ∧
  ∃ e, decode 0#40 = .error e

/-- Words the spec writes out, each with the command it stands for or the fact that it is illegal
(spec/95_test_vectors.md 2.1, 2.4, 2.5, 2.7, 2.8). A sanity statement. -/
def Obligations.SpecsOwnWordsDecode : Prop :=
  decode 0x1000000050#40 = .ok (.init 5) ∧
  decode 0x2634201110#40 = .ok (.send 0x6342 0x01 0x11) ∧
  decode 0x3634201001#40 = .ok (.switch 0x6342 0x01 true) ∧
  decode 0x4634201000#40 = .ok (.toggle 0x6342 0x01) ∧
  decode 0x5634201080#40 = .ok (.dim 0x6342 0x01 0x08) ∧
  decode 0x9000000020#40 = .ok .pushEnd ∧
  decode 0xA000000630#40 = .ok (.writeByte 0x63) ∧
  decode 0xB634201110#40 = .ok (.assemble 0x6342 0x01 0x11) ∧
  decode 0xC000000000#40 = .ok .transmit ∧
  decode 0x8000000002#40 = .error .reservedFieldSet ∧
  decode 0x3634201100#40 = .error .unusedFieldSet ∧
  decode 0x9000000030#40 = .error .unknownSymbolCode

/-- The assembler takes exactly the lines that stand for an instruction, and refuses a line with a missing or
superfluous operand or an operand out of its range (R76). -/
def Obligations.AssemblerTakesExactlyTheEncodableLines : Prop :=
  (∀ (l : SourceLine) (i : Instr), assembleLine l = some i ↔ sourceLine i = l) ∧
  ∀ l : SourceLine, assembleLine l = none ↔ l.wellFormed = false

/-! ## The command port (spec/60_exceptions.md, spec/70_reset_and_hazards.md) -/

/-- A step runs the decoded command: from an idle, unfaulted block with a legal word next, the step takes the word off
the port, makes the block `BUSY`, runs exec of the instruction, and makes the block `IDLE` again (R28, R210). The port
list and the `MODE` after a raised fault are the model's choice (log entries 2 and 5). -/
def Obligations.StepRunsTheDecodedCommand : Prop :=
  ∀ (s : State) (w : CmdWord) (rest : List CmdWord) (i : Instr),
    s.fault = .noFault → s.mode = .idle → s.port = w :: rest → decode w = .ok i →
    step s =
      match exec i { s with port := rest, mode := .busy } with
      | .next t => .next { t with mode := .idle }
      | .fault r => .fault r
      | .refused r => .refused r

/-- An illegal word writes `FAULT` and nothing else, and emits nothing (R182). What becomes of `MODE`, which R28 rules,
and of the host's pending words, which are no state of the block, is left open here. -/
def Obligations.IllegalWordWritesOnlyFault : Prop :=
  ∀ (s : State) (w : CmdWord) (rest : List CmdWord) (e : Illegal),
    s.fault = .noFault → s.mode = .idle → s.port = w :: rest → decode w = .error e →
    ∃ t, step s = .next t ∧ t = { s with port := t.port, mode := t.mode, fault := .illegalCommand }

/-- What a fault does (R11, R181): raising it writes `FAULT` and ends the command; from then on no step moves; no
command clears `FAULT`; a reset does. That the raise is a next state and that the halt is the named fault of every
later step are the model's choice (log entry 4). -/
def Obligations.RaisedFaultHaltsTheBlock : Prop :=
  (∀ (c : FaultCode) (s : State) (k : State → CmdResult),
    (raise c s).andThen k = .raised { s with fault := c } ∧
    (raise c s).outcome = .next { s with fault := c }) ∧
  (∀ s : State, s.fault ≠ .noFault → step s = .fault (.halted s.fault)) ∧
  (∀ (i : Instr) (s t : State), s.fault ≠ .noFault → exec i s = .next t → t.fault ≠ .noFault) ∧
  ∀ s : State, (hostReset s).fault = .noFault

/-- The port has no move while the block is `BUSY` (R210); that the model says so by a named fault is its choice (log
entry 3). -/
def Obligations.BusyPortHasNoMove : Prop :=
  ∀ s : State, s.fault = .noFault → s.mode = .busy → step s = .fault .portBusy

/-- An idle, unfaulted block with no word presented waits unchanged (R202); that waiting is a step is the model's choice
(log entry 17). -/
def Obligations.IdleBlockWaitsForAWord : Prop :=
  ∀ s : State, s.fault = .noFault → s.mode = .idle → s.port = [] → step s = .next s

/-- Nothing stops an unfaulted block that meets the invariant: every step has a next state. R210 has the port take a
command whenever the block is `IDLE` and unfaulted and run it to completion; that waiting for a word is a step, and that
a command that raises a fault answers a next state, are the model's choices (log entries 17 and 4). -/
def Obligations.UnfaultedSoundBlockAlwaysMoves : Prop :=
  ∀ s : State, s.Inv → s.fault = .noFault → ∃ t, step s = .next t

/-! ## Reset (spec/10_state.md R32, spec/70_reset_and_hazards.md R200) -/

/-- What reset leaves: the values the spec gives, no value in `PIN`, nothing emitted, the line as it was. -/
def Obligations.ResetLeavesTheStatedValues : Prop :=
  (∀ i, State.reset.buf.read i = symZero) ∧ State.reset.idx = 0 ∧ State.reset.pin = none ∧
  State.reset.pinValid = false ∧ State.reset.fault = .noFault ∧ State.reset.txPtr = 0 ∧
  State.reset.mode = .idle ∧ State.reset.rep = 0 ∧ State.reset.trace = [] ∧ State.reset.responses = [] ∧
  ∀ p, State.reset.line p = Config.initialLine p

/-- A reset given by the host puts the block's own state at its reset values and leaves the trace and every line
alone. -/
def Obligations.HostResetKeepsTheLine : Prop :=
  ∀ s : State,
    (∀ i, (hostReset s).buf.read i = symZero) ∧ (hostReset s).idx = 0 ∧ (hostReset s).pin = none ∧
    (hostReset s).pinValid = false ∧ (hostReset s).fault = .noFault ∧ (hostReset s).txPtr = 0 ∧
    (hostReset s).mode = .idle ∧ (hostReset s).rep = 0 ∧ (hostReset s).trace = s.trace ∧
    ∀ p, (hostReset s).line p = s.line p

/-! ## Invariants -/

/-- The reset state meets the invariant. -/
def Obligations.ResetMeetsTheInvariant : Prop := State.reset.Inv

/-- Every step keeps the invariant: `IDX` in range, no reserved code in a slot, every slot at `IDX` or above at
`SYM_ZERO`, and the rest of `State.Inv` (R95, R22 to R24, R27 to R29, R135). That `MODE` is `IDLE` after a fault too is
the model's choice (log entry 5). -/
def Obligations.StepKeepsTheInvariant : Prop :=
  ∀ s t : State, s.Inv → step s = .next t → t.Inv

/-- Every step keeps the buffer in canonical form, from any state that has it (R40, R41). -/
def Obligations.StepKeepsTheBufferCanonical : Prop :=
  ∀ s t : State, s.buf.wf → step s = .next t → t.buf.wf

/-- Every step keeps the trace made of whole pulses: each `WriteLevel(HIGH)` is followed at once by a `Sleep` of 400 or
600, `WriteLevel(LOW)` and a `Sleep` of the same value (R130). -/
def Obligations.StepKeepsPulsesWhole : Prop :=
  ∀ s t : State, pulsesPaired s.trace = true → step s = .next t → pulsesPaired t.trace = true

/-! ## The bit buffer (spec/40_buffer.md) -/

/-- CLEAR (R90): its word, and that every other word of its opcode is illegal; every slot at `SYM_ZERO`, `IDX` at 0,
nothing else changed, and a TRANSMIT after it does nothing. -/
def Obligations.ClearEmptiesTheBuffer : Prop :=
  encode .clear = 0x8000000000#40 ∧
  (∀ w : CmdWord, w.extractLsb 39 36 = 0x8 → w ≠ 0x8000000000#40 → ∃ e, decode w = .error e) ∧
  ∀ s : State, ∃ t, exec .clear s = .next t ∧ (∀ i, t.buf.read i = symZero) ∧
    t = { s with buf := t.buf, idx := 0 } ∧ exec .transmit t = .next t

/-- PUSH.0, PUSH.1 and PUSH.END (R91 to R94): with room the symbol goes into the slot at `IDX`, `IDX` rises by one, and
nothing else changes; on a full buffer nothing at all changes. -/
def Obligations.PushAppendsOrDropsSilently : Prop :=
  ∀ s : State, s.buf.wf → ∀ iv ∈ [(Instr.push0, symZero), (Instr.push1, symOne), (Instr.pushEnd, symEnd)],
    (s.idx.toNat < 96 → ∃ t, exec iv.1 s = .next t ∧ t.buf.read s.idx.toNat = iv.2 ∧
      (∀ i, i ≠ s.idx.toNat → t.buf.read i = s.buf.read i) ∧ t.idx.toNat = s.idx.toNat + 1 ∧
      t = { s with buf := t.buf, idx := t.idx }) ∧
    (96 ≤ s.idx.toNat → exec iv.1 s = .next s)

/-! ## The encoder (spec/41_encoder.md) -/

/-- The parity bit is the XOR of the byte's eight bits, its popcount modulo 2, and makes the nine bits' total even; the
five values of the source's example (R110). -/
def Obligations.ParityMakesAnEvenTotal : Prop :=
  (∀ v : Byte, parity v = xorOfBits v ∧ (parity v).toNat = popcount v % 2 ∧
    (popcount v + (parity v).toNat) % 2 = 0) ∧
  parity 0x63 = false ∧ parity 0x42 = false ∧ parity 0x01 = true ∧ parity 0x11 = false ∧ parity 0xBD = false

/-- The checksum is the sum of the seed, the home code's two bytes, the address and the command, modulo 256; the home
code's bytes are its quotient and remainder by 256; the largest sum is 0x402 and gives 0x02 (R111). -/
def Obligations.ChecksumIsTheSumModulo256 : Prop :=
  ∀ (hc : HomeCode) (a c : Byte),
    (homeCodeHigh hc).toNat = hc.toNat / 256 ∧ (homeCodeLow hc).toNat = hc.toNat % 256 ∧
    (checksum hc a c).toNat = (0x06 + hc.toNat / 256 + hc.toNat % 256 + a.toNat + c.toNat) % 256 ∧
    0x06 + hc.toNat / 256 + hc.toNat % 256 + a.toNat + c.toNat ≤ 0x402 ∧ checksum 0xFFFF 0xFF 0xFF = 0x02

/-- WRITEBYTE (R114): nine pushes, the byte's bits from the most significant down and then its parity; the pushes that
find the buffer full are dropped; nothing else changes. -/
def Obligations.WriteBytePushesNineSymbols : Prop :=
  ∀ (s : State) (v : Byte), s.buf.wf → s.idx.toNat ≤ 96 →
    ∃ t, exec (.writeByte v) s = .next t ∧
      t.idx.toNat = min 96 (s.idx.toNat + 9) ∧
      (∀ k, k < 8 → s.idx.toNat + k < 96 →
        t.buf.read (s.idx.toNat + k) = if v.getLsbD (7 - k) then symOne else symZero) ∧
      (s.idx.toNat + 8 < 96 → t.buf.read (s.idx.toNat + 8) = if xorOfBits v then symOne else symZero) ∧
      (∀ i, i < s.idx.toNat ∨ s.idx.toNat + 9 ≤ i ∨ 96 ≤ i → t.buf.read i = s.buf.read i) ∧
      t = { s with buf := t.buf, idx := t.idx }

/-- ASSEMBLE (R115, R46, R47): whatever the buffer held, every slot holds what the slot map says, `IDX` is 60, the
latches hold the operands and the checksum, and nothing else changes. What the latches hold after the command is the
model's choice (log entry 18). -/
def Obligations.AssembleBuildsTheSlotMap : Prop :=
  ∀ (s : State) (hc : HomeCode) (a c : Byte),
    ∃ t, exec (.assemble hc a c) s = .next t ∧
      (∀ i, t.buf.read i = telegramSlot hc a c i) ∧
      t = { s with
        buf := t.buf, idx := 60, hcHi := telegramByte hc a c 0, hcLo := telegramByte hc a c 1, addr := a, cmd := c,
        csum := telegramByte hc a c 4 }

/-- The five properties that hold after every ASSEMBLE (R116). -/
def Obligations.AssembledTelegramProperties : Prop :=
  ∀ (s t : State) (hc : HomeCode) (a c : Byte), exec (.assemble hc a c) s = .next t →
    ((∀ i, i < 12 → t.buf.read i = symZero) ∧ t.buf.read 12 = symOne) ∧
    (t.buf.read 58 = symZero ∧ t.buf.read 59 = symEnd) ∧
    (∀ k, k < 8 → t.buf.read (49 + k) = if (checksum hc a c).getLsbD (7 - k) then symOne else symZero) ∧
    (∀ g ∈ [13, 22, 31, 40, 49], (((List.range 9).map fun k => t.buf.read (g + k)).count symOne) % 2 = 0) ∧
    (t.idx = 60 ∧ (∀ i, t.buf.read i = symEnd ↔ i = 59) ∧ ∀ i, 60 ≤ i → i < 96 → t.buf.read i = symZero)

/-- ASSEMBLE's result does not depend on the state before it: from any two states it leaves the same buffer, index and
latches (R115, R158). What the latches hold after the command is the model's choice (log entry 18). -/
def Obligations.AssembleForgetsTheOldBuffer : Prop :=
  ∀ (s s' t t' : State) (hc : HomeCode) (a c : Byte),
    exec (.assemble hc a c) s = .next t → exec (.assemble hc a c) s' = .next t' →
    t.buf = t'.buf ∧ t.idx = t'.idx ∧ t.hcHi = t'.hcHi ∧ t.hcLo = t'.hcLo ∧ t.addr = t'.addr ∧ t.cmd = t'.cmd ∧
      t.csum = t'.csum

/-! ## The transmitter (spec/42_transmit.md) -/

/-- TRANSMIT on an empty buffer does nothing, whatever `PIN_VALID` (R132). -/
def Obligations.TransmitOnAnEmptyBufferDoesNothing : Prop :=
  ∀ s : State, s.idx = 0 → exec .transmit s = .next s

/-- TRANSMIT (R133, R130, R134): on a non-empty buffer with a pin, and no reserved code before the first END-MARKER, it
emits one pulse for each data symbol before the END-MARKER (for all 96 slots if there is none), moves `TX_PTR` past
them, and changes nothing else, `BUF` and `IDX` among it. That `TX_PTR` stays there is the model's choice (log entry
10). -/
def Obligations.TransmitSendsUpToTheFirstEnd : Prop :=
  ∀ (s : State) (p : Pin), s.idx ≠ 0 → s.pinValid = true → s.pin = some p → stopSymbol s ≠ some symReserved →
    ∃ t, exec .transmit s = .next t ∧ t.trace = s.trace ++ waveform p (sentBits s) ∧
      t.txPtr.toNat = (sentBits s).length ∧ t = { s with trace := t.trace, txPtr := t.txPtr }

/-- TRANSMIT that meets the reserved code raises `RESERVED_SYMBOL` at that slot: the pulses of the slots before it stay
in the trace, and that slot emits nothing (R135). That `TX_PTR` stays there is the model's choice (log entry 10). -/
def Obligations.TransmitRaisesOnTheReservedSymbol : Prop :=
  ∀ (s : State) (p : Pin), s.idx ≠ 0 → s.pinValid = true → s.pin = some p → stopSymbol s = some symReserved →
    ∃ t, exec .transmit s = .next t ∧ t.trace = s.trace ++ waveform p (sentBits s) ∧ t.fault = .reservedSymbol ∧
      t.txPtr.toNat = (sentBits s).length ∧
      t = { s with trace := t.trace, txPtr := t.txPtr, fault := .reservedSymbol }

/-- TRANSMIT changes neither `BUF` nor `IDX`, and a second TRANSMIT with no command between sends the same waveform
again (R134). -/
def Obligations.RepeatedTransmitSendsTheSameWaveform : Prop :=
  (∀ s t : State, exec .transmit s = .next t → t.buf = s.buf ∧ t.idx = s.idx) ∧
  ∀ s t u : State, exec .transmit s = .next t → t.fault = .noFault → exec .transmit t = .next u →
    ∃ es, t.trace = s.trace ++ es ∧ u.trace = t.trace ++ es

/-- TRANSMIT over an assembled telegram (R136): exactly the waveform of the 59 frame bits, 236 events, and
`800 * n0 + 1200 * n1`, that is `47200 + 400 * n1`, microseconds of sleep. -/
def Obligations.AssembledTelegramWaveform : Prop :=
  ∀ (s : State) (p : Pin) (hc : HomeCode) (a c : Byte), s.pinValid = true → s.pin = some p →
    ∃ t u, exec (.assemble hc a c) s = .next t ∧ exec .transmit t = .next u ∧
      u.trace = t.trace ++ waveform p (frame hc a c) ∧ (waveform p (frame hc a c)).length = 236 ∧
      sleepTime (waveform p (frame hc a c)) =
        800 * (frame hc a c).count false + 1200 * (frame hc a c).count true ∧
      sleepTime (waveform p (frame hc a c)) = 47200 + 400 * (frame hc a c).count true

/-! ## The public commands (spec/43_orchestrator.md) -/

/-- INIT (R150): its one event, `PIN`, `PIN_VALID`, the response `true`, and nothing else; in every state, so that a
second INIT replaces the pin. -/
def Obligations.InitSelectsThePin : Prop :=
  ∀ (s : State) (p : Pin),
    exec (.init p) s = .next { s with
      pin := some p, pinValid := true, trace := s.trace ++ [.setDirOut p], responses := s.responses ++ [true] }

/-- Before INIT, SEND, SWITCH, TOGGLE and DIM at every level raise `NOT_INITIALISED` and change nothing else, and so
does TRANSMIT on a non-empty buffer; INIT, CLEAR, PUSH, WRITEBYTE and ASSEMBLE never raise it (R183). -/
def Obligations.LineCommandsBeforeInitRaise : Prop :=
  (∀ (s : State) (hc : HomeCode) (a b : Byte) (on : Bool), s.pinValid = false →
    ∀ i ∈ [Instr.send hc a b, .switch hc a on, .toggle hc a, .dim hc a b],
      exec i s = .next { s with fault := .notInitialised }) ∧
  (∀ s : State, s.pinValid = false → s.idx ≠ 0 → exec .transmit s = .next { s with fault := .notInitialised }) ∧
  ∀ (s : State) (p : Pin) (hc : HomeCode) (a b : Byte),
    ∀ i ∈ [Instr.init p, .clear, .push0, .push1, .pushEnd, .writeByte b, .assemble hc a b],
      ∃ t, exec i s = .next t ∧ t.fault = s.fault

/-- SEND (R152, R153): with a pin it sends the telegram three times with two gaps, leaves it assembled, and changes
nothing else. What the latches hold after the command is the model's choice (log entry 18). -/
def Obligations.SendTransmitsThreeTelegrams : Prop :=
  ∀ (s : State) (p : Pin) (hc : HomeCode) (a c : Byte), s.pinValid = true → s.pin = some p →
    ∃ t, exec (.send hc a c) s = .next t ∧ SentTelegram hc a c p s t

/-- SWITCH (R155): it sends command byte 0x10 for on and 0x00 for off. What the latches hold after the command is the
model's choice (log entry 18). -/
def Obligations.SwitchSendsItsCommandByte : Prop :=
  ∀ (s : State) (p : Pin) (hc : HomeCode) (a : Byte) (on : Bool), s.pinValid = true → s.pin = some p →
    ∃ t, exec (.switch hc a on) s = .next t ∧ SentTelegram hc a (if on then 0x10 else 0x00) p s t

/-- TOGGLE (R156): it sends command byte 0x12. What the latches hold after the command is the model's choice (log
entry 18). -/
def Obligations.ToggleSendsItsCommandByte : Prop :=
  ∀ (s : State) (p : Pin) (hc : HomeCode) (a : Byte), s.pinValid = true → s.pin = some p →
    ∃ t, exec (.toggle hc a) s = .next t ∧ SentTelegram hc a 0x12 p s t

/-- DIM (R157): up to level 0x10 it sends the toggle byte 0x12, never the level; above it nothing at all happens.
What the latches hold after the command is the model's choice (log entry 18). -/
def Obligations.DimForwardsAToggleUpToItsBound : Prop :=
  ∀ (s : State) (p : Pin) (hc : HomeCode) (a level : Byte), s.pinValid = true → s.pin = some p →
    (level.toNat ≤ 0x10 → ∃ t, exec (.dim hc a level) s = .next t ∧ SentTelegram hc a 0x12 p s t) ∧
    (0x10 < level.toNat → exec (.dim hc a level) s = .next s)

/-- The equivalences of SWITCH, TOGGLE and DIM (R77), in every state: the unset pin raises the same fault. -/
def Obligations.PublicCommandsEqualSends : Prop :=
  ∀ (s : State) (hc : HomeCode) (a l : Byte),
    exec (.switch hc a true) s = exec (.send hc a 0x10) s ∧
    exec (.switch hc a false) s = exec (.send hc a 0x00) s ∧
    exec (.toggle hc a) s = exec (.send hc a 0x12) s ∧
    (l.toNat ≤ 0x10 → exec (.dim hc a l) s = exec (.toggle hc a) s)

/-- A SEND is three times ASSEMBLE and TRANSMIT, but for its gaps and for `REP`: the same final state, and the same
trace with the `Sleep(GAP_US)` events taken out (R77). What `TX_PTR`, `REP` and the latches hold after
it is the model's choice (log entries 10 and 18). -/
def Obligations.SendEqualsAssembleTransmitSequence : Prop :=
  ∀ (s : State) (p : Pin) (hc : HomeCode) (a c : Byte), s.pinValid = true → s.pin = some p → s.fault = .noFault →
    ∃ t u es, exec (.send hc a c) s = .next t ∧
      execAll [.assemble hc a c, .transmit, .assemble hc a c, .transmit, .assemble hc a c, .transmit] s = .next u ∧
      t.trace = s.trace ++ es ∧ u.trace = s.trace ++ es.filter (fun e => decide (e ≠ .sleep 8000)) ∧
      u = { t with trace := u.trace, rep := s.rep }

/-- An ASSEMBLE is CLEAR, twelve PUSH.0, PUSH.1, five WRITEBYTE, PUSH.0 and PUSH.END: the same final state but for the
operand latches, which only ASSEMBLE loads (R77). What the latches hold after ASSEMBLE is the model's choice (log entry
18). -/
def Obligations.AssembleEqualsItsCommandSequence : Prop :=
  ∀ (s : State) (hc : HomeCode) (a c : Byte), s.fault = .noFault →
    ∃ t, exec (.assemble hc a c) s = .next t ∧
      execAll (assembleCommands hc a c) s =
        .next { t with hcHi := s.hcHi, hcLo := s.hcLo, addr := s.addr, cmd := s.cmd, csum := s.csum }

/-- A WRITEBYTE is nine PUSH commands (R77). -/
def Obligations.WriteByteEqualsItsPushes : Prop :=
  ∀ (s : State) (v : Byte), s.fault = .noFault → exec (.writeByte v) s = execAll (writeByteCommands v) s

/-! ## The whole machine -/

/-- Only INIT writes `PIN` and `PIN_VALID` (R23, R24). -/
def Obligations.OnlyInitWritesThePin : Prop :=
  ∀ (i : Instr) (s t : State), (∀ p, i ≠ .init p) → exec i s = .next t → t.pin = s.pin ∧ t.pinValid = s.pinValid

/-- INIT responds `true` once; no other command responds; an idle block is idle again after every step that
completes a command (R151). -/
def Obligations.OnlyInitResponds : Prop :=
  (∀ (s : State) (p : Pin), ∃ t, exec (.init p) s = .next t ∧ t.responses = s.responses ++ [true]) ∧
  (∀ (i : Instr) (s t : State), (∀ p, i ≠ .init p) → exec i s = .next t → t.responses = s.responses) ∧
  ∀ s t : State, s.mode = .idle → step s = .next t → t.fault = .noFault → t.mode = .idle

/-- A step never takes back or changes an event: the trace after it is the trace before it and then new events
(R50). -/
def Obligations.StepOnlyExtendsTheTrace : Prop :=
  ∀ s t : State, step s = .next t → ∃ es, t.trace = s.trace ++ es

/-- From a state that meets the invariant no command raises `RESERVED_SYMBOL` (R135, R184). -/
def Obligations.ReservedSymbolIsUnreachable : Prop :=
  ∀ (i : Instr) (s t : State), s.Inv → exec i s = .next t → t.fault ≠ .reservedSymbol

/-- A command that raises `NOT_INITIALISED` has written no other state and emitted no event (R11, R188). -/
def Obligations.NotInitialisedHasNoOtherEffect : Prop :=
  ∀ (i : Instr) (s t : State), s.fault = .noFault → exec i s = .next t → t.fault = .notInitialised →
    t = { s with fault := .notInitialised }

/-- A send reads nothing an earlier command left but `PIN` and `PIN_VALID`: from two states that agree on these, SEND,
SWITCH, TOGGLE and DIM append the same events and give the same fault, and leave the same buffer or leave both buffers
alone (R158). -/
def Obligations.SendsForgetEarlierCommands : Prop :=
  ∀ (s s' t t' : State) (hc : HomeCode) (a b : Byte) (on : Bool),
    ∀ i ∈ [Instr.send hc a b, .switch hc a on, .toggle hc a, .dim hc a b],
    s.pin = s'.pin → s.pinValid = s'.pinValid → s.fault = s'.fault →
    exec i s = .next t → exec i s' = .next t' →
    (∃ es, t.trace = s.trace ++ es ∧ t'.trace = s'.trace ++ es) ∧ t.fault = t'.fault ∧
      ((t.buf = t'.buf ∧ t.idx = t'.idx) ∨
        (t.buf = s.buf ∧ t.idx = s.idx ∧ t'.buf = s'.buf ∧ t'.idx = s'.idx))

/-- After a SEND its pin's line is `LOW`, its direction is as it was, and every other pin's line is as it was
(R31, R130, R152). -/
def Obligations.SendLeavesTheLineLow : Prop :=
  ∀ (s t : State) (p : Pin) (hc : HomeCode) (a c : Byte), s.pinValid = true → s.pin = some p →
    exec (.send hc a c) s = .next t →
    t.line p = { s.line p with level := .low } ∧ ∀ q, q ≠ p → t.line q = s.line q

/-- The sleep time of a SEND and its bounds: the events it appends sleep for three telegrams of `47200 + 400 * n1`
microseconds, `n1` the 1 to 41 ones of the frame, and two gaps; from 158800 to 206800 microseconds (R216). -/
def Obligations.SendSleepTimeBounds : Prop :=
  ∀ (s : State) (p : Pin) (hc : HomeCode) (a c : Byte), s.pinValid = true → s.pin = some p →
    ∃ t es, exec (.send hc a c) s = .next t ∧ t.trace = s.trace ++ es ∧
      sleepTime es = 3 * (47200 + 400 * (frame hc a c).count true) + 16000 ∧
      1 ≤ (frame hc a c).count true ∧ (frame hc a c).count true ≤ 41 ∧
      158800 ≤ sleepTime es ∧ sleepTime es ≤ 206800

/-- Where `PIN` holds no value although `PIN_VALID` is 1 (a state no run reaches), a command that needs `PIN` faults
(spec/93_implementation_defined.md I12: "no value; a read would be a `fault`, and `NOT_INITIALISED` guards every read"):
SEND, SWITCH, TOGGLE and DIM at every level, and TRANSMIT on a non-empty buffer, raise `NOT_INITIALISED` where they check
`PIN_VALID` and change nothing else. That this is the fault and that the check raises it is the model's choice (log
entry 6). -/
def Obligations.ReadOfAPinWithoutAValueRaises : Prop :=
  ∀ (s : State) (hc : HomeCode) (a b : Byte) (on : Bool), s.pinValid = true → s.pin = none →
    (∀ i ∈ [Instr.send hc a b, .switch hc a on, .toggle hc a, .dim hc a b],
      exec i s = .next { s with fault := .notInitialised }) ∧
    (s.idx ≠ 0 → exec .transmit s = .next { s with fault := .notInitialised })

/-- No command stops: from every state, whatever its operands, a command runs to its end or raises one of the spec's
faults, and answers a next state either way (R113, R186, R210). That a raised fault is a next state is the model's choice
(log entry 4). -/
def Obligations.EveryCommandAnswersANextState : Prop :=
  ∀ (i : Instr) (s : State), ∃ t, exec i s = .next t ∧
    (t.fault = s.fault ∨ t.fault = .notInitialised ∨ t.fault = .reservedSymbol)
end

