-- ==== Sys2Proof/Laws/Memory.lean ====
section
/-! SUPPORT. The laws of the bit buffer: reads of the empty buffer, a read after a write, and that every memory
operation keeps the canonical form. -/

namespace Sys2Proof.Machine

@[simp] theorem Memory.read_nil (a : Nat) : Memory.read [] a = symZero := rfl

@[simp] theorem Memory.read_cleared (a : Nat) : Memory.cleared.read a = symZero := rfl

theorem Memory.wf_nil : Memory.wf [] := ⟨List.Pairwise.nil, by simp⟩

theorem Memory.wf_cleared : Memory.cleared.wf := Memory.wf_nil

/-- A buffer in canonical form without its first slot is in canonical form. -/
theorem Memory.wf_tail {c : Nat × Symbol} {m : Memory} (h : Memory.wf (c :: m)) : m.wf :=
  ⟨(List.pairwise_cons.mp h.1).2, fun d hd => h.2 d (List.mem_cons_of_mem c hd)⟩

/-- The slots after the first lie above it. -/
theorem Memory.wf_head_lt {c : Nat × Symbol} {m : Memory} (h : Memory.wf (c :: m)) :
    ∀ d ∈ m, c.1 < d.1 :=
  (List.pairwise_cons.mp h.1).1

/-- A slot below every listed one holds `SYM_ZERO`. -/
theorem Memory.read_of_below {m : Memory} {a : Nat} (h : ∀ d ∈ m, a < d.1) : m.read a = symZero := by
  induction m with
  | nil => rfl
  | cons c m ih =>
    have hc : a ≠ c.1 := Nat.ne_of_lt (h c (by simp))
    simpa [Memory.read, hc] using ih fun d hd => h d (List.mem_cons_of_mem c hd)

/-- The slots of a written buffer are the written one and slots that were listed before. -/
theorem Memory.mem_write {m : Memory} {a : Nat} {v : Symbol} {c : Nat × Symbol} (h : c ∈ m.write a v) :
    (c = (a, v) ∧ v ≠ unlistedSymbol) ∨ c ∈ m := by
  induction m with
  | nil =>
    simp only [Memory.write] at h
    split at h
    · cases h
    · exact .inl ⟨by simpa using h, ‹_›⟩
  | cons d m ih =>
    simp only [Memory.write] at h
    split at h
    · split at h
      · exact .inr h
      · rcases List.mem_cons.mp h with h | h
        · exact .inl ⟨h, ‹_›⟩
        · exact .inr h
    · split at h
      · split at h
        · exact .inr (List.mem_cons_of_mem d h)
        · rcases List.mem_cons.mp h with h | h
          · exact .inl ⟨h, ‹_›⟩
          · exact .inr (List.mem_cons_of_mem d h)
      · rcases List.mem_cons.mp h with h | h
        · exact .inr (h ▸ List.mem_cons_self ..)
        · exact (ih h).imp id (List.mem_cons_of_mem d)

/-- Writing a slot of the address space keeps the canonical form. -/
theorem Memory.wf_write {m : Memory} {a : Nat} {v : Symbol} (hm : m.wf) (ha : a < Config.capacity) :
    (m.write a v).wf := by
  refine ⟨?_, fun c hc => ?_⟩
  · induction m with
    | nil =>
      simp only [Memory.write]
      split <;> simp
    | cons d m ih =>
      have hlt := Memory.wf_head_lt hm
      have ht := Memory.wf_tail hm
      simp only [Memory.write]
      split
      · split
        · exact hm.1
        · refine List.pairwise_cons.mpr ⟨fun e he => ?_, hm.1⟩
          rcases List.mem_cons.mp he with rfl | he
          · assumption
          · exact Nat.lt_trans ‹_› (hlt e he)
      · split
        · subst a
          split
          · exact ht.1
          · exact List.pairwise_cons.mpr ⟨hlt, ht.1⟩
        · refine List.pairwise_cons.mpr ⟨fun e he => ?_, ih ht⟩
          rcases Memory.mem_write he with ⟨rfl, -⟩ | he
          · simp only
            omega
          · exact hlt e he
  · rcases Memory.mem_write hc with ⟨rfl, hv⟩ | hc
    · exact ⟨ha, hv⟩
    · exact hm.2 c hc

/-- A read after a write: the written slot holds the symbol written, and every other slot what it held. -/
theorem Memory.read_write {m : Memory} (hm : m.wf) (a b : Nat) (v : Symbol) :
    (m.write a v).read b = if b = a then v else m.read b := by
  induction m with
  | nil =>
    simp only [Memory.write]
    split
    · rename_i hv
      simp [Memory.read, hv]
    · simp [Memory.read]
  | cons d m ih =>
    have hlt := Memory.wf_head_lt hm
    have hbelow : Memory.read m d.1 = symZero := Memory.read_of_below hlt
    have habove : ∀ x < d.1, Memory.read m x = symZero := fun x hx =>
      Memory.read_of_below fun e he => Nat.lt_trans hx (hlt e he)
    have ih := ih (Memory.wf_tail hm)
    simp only [Memory.write]
    split
    · rename_i had
      split
      · rename_i hv
        by_cases hb : b = a
        · subst hb
          simp [Memory.read, Nat.ne_of_lt had, habove b had, hv, unlistedSymbol]
        · simp [hb]
      · by_cases hb : b = a <;> simp [Memory.read, hb]
    · split
      · rename_i had
        subst had
        split
        · rename_i hv
          by_cases hb : b = d.1 <;> simp [Memory.read, hb, hbelow, hv, unlistedSymbol]
        · by_cases hb : b = d.1 <;> simp [Memory.read, hb]
      · rename_i h1 h2
        by_cases hb : b = d.1
        · have hne : ¬ b = a := by omega
          simp [Memory.read, hb, Ne.symm h2]
        · simp [Memory.read, hb, ih]

end Sys2Proof.Machine
end

