-- ==== Sys2Proof/Laws/State.lean ====
section
/-! SUPPORT. What each named update of the state does to each field, one lemma per field per update. -/

namespace Sys2Proof.Machine

variable (s : State)

/-! `setBuffer` writes the buffer and its index and nothing else. -/

section
variable (m : Memory) (i : SlotIx)
@[simp] theorem setBuffer_buf : (setBuffer m i s).buf = m := rfl
@[simp] theorem setBuffer_idx : (setBuffer m i s).idx = i := rfl
@[simp] theorem setBuffer_pin : (setBuffer m i s).pin = s.pin := rfl
@[simp] theorem setBuffer_pinValid : (setBuffer m i s).pinValid = s.pinValid := rfl
@[simp] theorem setBuffer_fault : (setBuffer m i s).fault = s.fault := rfl
@[simp] theorem setBuffer_hcHi : (setBuffer m i s).hcHi = s.hcHi := rfl
@[simp] theorem setBuffer_hcLo : (setBuffer m i s).hcLo = s.hcLo := rfl
@[simp] theorem setBuffer_addr : (setBuffer m i s).addr = s.addr := rfl
@[simp] theorem setBuffer_cmd : (setBuffer m i s).cmd = s.cmd := rfl
@[simp] theorem setBuffer_csum : (setBuffer m i s).csum = s.csum := rfl
@[simp] theorem setBuffer_txPtr : (setBuffer m i s).txPtr = s.txPtr := rfl
@[simp] theorem setBuffer_mode : (setBuffer m i s).mode = s.mode := rfl
@[simp] theorem setBuffer_rep : (setBuffer m i s).rep = s.rep := rfl
@[simp] theorem setBuffer_trace : (setBuffer m i s).trace = s.trace := rfl
@[simp] theorem setBuffer_responses : (setBuffer m i s).responses = s.responses := rfl
@[simp] theorem setBuffer_port : (setBuffer m i s).port = s.port := rfl
@[simp] theorem setBuffer_selectedPin : selectedPin (setBuffer m i s) = selectedPin s := rfl
end

/-! `setPin` writes the pin register and its valid bit and nothing else. -/

section
variable (p : Pin)
@[simp] theorem setPin_buf : (setPin p s).buf = s.buf := rfl
@[simp] theorem setPin_idx : (setPin p s).idx = s.idx := rfl
@[simp] theorem setPin_pin : (setPin p s).pin = some p := rfl
@[simp] theorem setPin_pinValid : (setPin p s).pinValid = true := rfl
@[simp] theorem setPin_fault : (setPin p s).fault = s.fault := rfl
@[simp] theorem setPin_hcHi : (setPin p s).hcHi = s.hcHi := rfl
@[simp] theorem setPin_hcLo : (setPin p s).hcLo = s.hcLo := rfl
@[simp] theorem setPin_addr : (setPin p s).addr = s.addr := rfl
@[simp] theorem setPin_cmd : (setPin p s).cmd = s.cmd := rfl
@[simp] theorem setPin_csum : (setPin p s).csum = s.csum := rfl
@[simp] theorem setPin_txPtr : (setPin p s).txPtr = s.txPtr := rfl
@[simp] theorem setPin_mode : (setPin p s).mode = s.mode := rfl
@[simp] theorem setPin_rep : (setPin p s).rep = s.rep := rfl
@[simp] theorem setPin_trace : (setPin p s).trace = s.trace := rfl
@[simp] theorem setPin_responses : (setPin p s).responses = s.responses := rfl
@[simp] theorem setPin_port : (setPin p s).port = s.port := rfl
@[simp] theorem setPin_selectedPin : selectedPin (setPin p s) = some p := rfl
end

/-! `setLatches` writes the operand latches and nothing else. -/

section
variable (hi lo a c cs : Byte)
@[simp] theorem setLatches_buf : (setLatches hi lo a c cs s).buf = s.buf := rfl
@[simp] theorem setLatches_idx : (setLatches hi lo a c cs s).idx = s.idx := rfl
@[simp] theorem setLatches_pin : (setLatches hi lo a c cs s).pin = s.pin := rfl
@[simp] theorem setLatches_pinValid : (setLatches hi lo a c cs s).pinValid = s.pinValid := rfl
@[simp] theorem setLatches_fault : (setLatches hi lo a c cs s).fault = s.fault := rfl
@[simp] theorem setLatches_hcHi : (setLatches hi lo a c cs s).hcHi = hi := rfl
@[simp] theorem setLatches_hcLo : (setLatches hi lo a c cs s).hcLo = lo := rfl
@[simp] theorem setLatches_addr : (setLatches hi lo a c cs s).addr = a := rfl
@[simp] theorem setLatches_cmd : (setLatches hi lo a c cs s).cmd = c := rfl
@[simp] theorem setLatches_csum : (setLatches hi lo a c cs s).csum = cs := rfl
@[simp] theorem setLatches_txPtr : (setLatches hi lo a c cs s).txPtr = s.txPtr := rfl
@[simp] theorem setLatches_mode : (setLatches hi lo a c cs s).mode = s.mode := rfl
@[simp] theorem setLatches_rep : (setLatches hi lo a c cs s).rep = s.rep := rfl
@[simp] theorem setLatches_trace : (setLatches hi lo a c cs s).trace = s.trace := rfl
@[simp] theorem setLatches_responses : (setLatches hi lo a c cs s).responses = s.responses := rfl
@[simp] theorem setLatches_port : (setLatches hi lo a c cs s).port = s.port := rfl
@[simp] theorem setLatches_selectedPin : selectedPin (setLatches hi lo a c cs s) = selectedPin s := rfl
end

/-! `setTxPtr` writes the transmitter's pointer and nothing else. -/

section
variable (i : SlotIx)
@[simp] theorem setTxPtr_buf : (setTxPtr i s).buf = s.buf := rfl
@[simp] theorem setTxPtr_idx : (setTxPtr i s).idx = s.idx := rfl
@[simp] theorem setTxPtr_pin : (setTxPtr i s).pin = s.pin := rfl
@[simp] theorem setTxPtr_pinValid : (setTxPtr i s).pinValid = s.pinValid := rfl
@[simp] theorem setTxPtr_fault : (setTxPtr i s).fault = s.fault := rfl
@[simp] theorem setTxPtr_hcHi : (setTxPtr i s).hcHi = s.hcHi := rfl
@[simp] theorem setTxPtr_hcLo : (setTxPtr i s).hcLo = s.hcLo := rfl
@[simp] theorem setTxPtr_addr : (setTxPtr i s).addr = s.addr := rfl
@[simp] theorem setTxPtr_cmd : (setTxPtr i s).cmd = s.cmd := rfl
@[simp] theorem setTxPtr_csum : (setTxPtr i s).csum = s.csum := rfl
@[simp] theorem setTxPtr_txPtr : (setTxPtr i s).txPtr = i := rfl
@[simp] theorem setTxPtr_mode : (setTxPtr i s).mode = s.mode := rfl
@[simp] theorem setTxPtr_rep : (setTxPtr i s).rep = s.rep := rfl
@[simp] theorem setTxPtr_trace : (setTxPtr i s).trace = s.trace := rfl
@[simp] theorem setTxPtr_responses : (setTxPtr i s).responses = s.responses := rfl
@[simp] theorem setTxPtr_port : (setTxPtr i s).port = s.port := rfl
@[simp] theorem setTxPtr_selectedPin : selectedPin (setTxPtr i s) = selectedPin s := rfl
end

/-! `setRep` writes the repetition counter and nothing else. -/

section
variable (r : BitVec 2)
@[simp] theorem setRep_buf : (setRep r s).buf = s.buf := rfl
@[simp] theorem setRep_idx : (setRep r s).idx = s.idx := rfl
@[simp] theorem setRep_pin : (setRep r s).pin = s.pin := rfl
@[simp] theorem setRep_pinValid : (setRep r s).pinValid = s.pinValid := rfl
@[simp] theorem setRep_fault : (setRep r s).fault = s.fault := rfl
@[simp] theorem setRep_hcHi : (setRep r s).hcHi = s.hcHi := rfl
@[simp] theorem setRep_hcLo : (setRep r s).hcLo = s.hcLo := rfl
@[simp] theorem setRep_addr : (setRep r s).addr = s.addr := rfl
@[simp] theorem setRep_cmd : (setRep r s).cmd = s.cmd := rfl
@[simp] theorem setRep_csum : (setRep r s).csum = s.csum := rfl
@[simp] theorem setRep_txPtr : (setRep r s).txPtr = s.txPtr := rfl
@[simp] theorem setRep_mode : (setRep r s).mode = s.mode := rfl
@[simp] theorem setRep_rep : (setRep r s).rep = r := rfl
@[simp] theorem setRep_trace : (setRep r s).trace = s.trace := rfl
@[simp] theorem setRep_responses : (setRep r s).responses = s.responses := rfl
@[simp] theorem setRep_port : (setRep r s).port = s.port := rfl
@[simp] theorem setRep_selectedPin : selectedPin (setRep r s) = selectedPin s := rfl
end

/-! `emit` writes the trace and nothing else. -/

section
variable (es : List Event)
@[simp] theorem emit_buf : (emit es s).buf = s.buf := rfl
@[simp] theorem emit_idx : (emit es s).idx = s.idx := rfl
@[simp] theorem emit_pin : (emit es s).pin = s.pin := rfl
@[simp] theorem emit_pinValid : (emit es s).pinValid = s.pinValid := rfl
@[simp] theorem emit_fault : (emit es s).fault = s.fault := rfl
@[simp] theorem emit_hcHi : (emit es s).hcHi = s.hcHi := rfl
@[simp] theorem emit_hcLo : (emit es s).hcLo = s.hcLo := rfl
@[simp] theorem emit_addr : (emit es s).addr = s.addr := rfl
@[simp] theorem emit_cmd : (emit es s).cmd = s.cmd := rfl
@[simp] theorem emit_csum : (emit es s).csum = s.csum := rfl
@[simp] theorem emit_txPtr : (emit es s).txPtr = s.txPtr := rfl
@[simp] theorem emit_mode : (emit es s).mode = s.mode := rfl
@[simp] theorem emit_rep : (emit es s).rep = s.rep := rfl
@[simp] theorem emit_trace : (emit es s).trace = s.trace ++ es := rfl
@[simp] theorem emit_responses : (emit es s).responses = s.responses := rfl
@[simp] theorem emit_port : (emit es s).port = s.port := rfl
@[simp] theorem emit_selectedPin : selectedPin (emit es s) = selectedPin s := rfl
end

/-! `respond` writes the responses and nothing else. -/

section
variable (b : Bool)
@[simp] theorem respond_buf : (respond b s).buf = s.buf := rfl
@[simp] theorem respond_idx : (respond b s).idx = s.idx := rfl
@[simp] theorem respond_pin : (respond b s).pin = s.pin := rfl
@[simp] theorem respond_pinValid : (respond b s).pinValid = s.pinValid := rfl
@[simp] theorem respond_fault : (respond b s).fault = s.fault := rfl
@[simp] theorem respond_hcHi : (respond b s).hcHi = s.hcHi := rfl
@[simp] theorem respond_hcLo : (respond b s).hcLo = s.hcLo := rfl
@[simp] theorem respond_addr : (respond b s).addr = s.addr := rfl
@[simp] theorem respond_cmd : (respond b s).cmd = s.cmd := rfl
@[simp] theorem respond_csum : (respond b s).csum = s.csum := rfl
@[simp] theorem respond_txPtr : (respond b s).txPtr = s.txPtr := rfl
@[simp] theorem respond_mode : (respond b s).mode = s.mode := rfl
@[simp] theorem respond_rep : (respond b s).rep = s.rep := rfl
@[simp] theorem respond_trace : (respond b s).trace = s.trace := rfl
@[simp] theorem respond_responses : (respond b s).responses = s.responses ++ [b] := rfl
@[simp] theorem respond_port : (respond b s).port = s.port := rfl
@[simp] theorem respond_selectedPin : selectedPin (respond b s) = selectedPin s := rfl
end

/-! `setMode` writes the sequencer mode and nothing else. -/

section
variable (m : Mode)
@[simp] theorem setMode_buf : (setMode m s).buf = s.buf := rfl
@[simp] theorem setMode_idx : (setMode m s).idx = s.idx := rfl
@[simp] theorem setMode_pin : (setMode m s).pin = s.pin := rfl
@[simp] theorem setMode_pinValid : (setMode m s).pinValid = s.pinValid := rfl
@[simp] theorem setMode_fault : (setMode m s).fault = s.fault := rfl
@[simp] theorem setMode_hcHi : (setMode m s).hcHi = s.hcHi := rfl
@[simp] theorem setMode_hcLo : (setMode m s).hcLo = s.hcLo := rfl
@[simp] theorem setMode_addr : (setMode m s).addr = s.addr := rfl
@[simp] theorem setMode_cmd : (setMode m s).cmd = s.cmd := rfl
@[simp] theorem setMode_csum : (setMode m s).csum = s.csum := rfl
@[simp] theorem setMode_txPtr : (setMode m s).txPtr = s.txPtr := rfl
@[simp] theorem setMode_mode : (setMode m s).mode = m := rfl
@[simp] theorem setMode_rep : (setMode m s).rep = s.rep := rfl
@[simp] theorem setMode_trace : (setMode m s).trace = s.trace := rfl
@[simp] theorem setMode_responses : (setMode m s).responses = s.responses := rfl
@[simp] theorem setMode_port : (setMode m s).port = s.port := rfl
@[simp] theorem setMode_selectedPin : selectedPin (setMode m s) = selectedPin s := rfl
end

/-! `setPort` writes the host's words and nothing else. -/

section
variable (ws : List CmdWord)
@[simp] theorem setPort_buf : (setPort ws s).buf = s.buf := rfl
@[simp] theorem setPort_idx : (setPort ws s).idx = s.idx := rfl
@[simp] theorem setPort_pin : (setPort ws s).pin = s.pin := rfl
@[simp] theorem setPort_pinValid : (setPort ws s).pinValid = s.pinValid := rfl
@[simp] theorem setPort_selectedPin : selectedPin (setPort ws s) = selectedPin s := rfl
@[simp] theorem setPort_fault : (setPort ws s).fault = s.fault := rfl
@[simp] theorem setPort_hcHi : (setPort ws s).hcHi = s.hcHi := rfl
@[simp] theorem setPort_hcLo : (setPort ws s).hcLo = s.hcLo := rfl
@[simp] theorem setPort_addr : (setPort ws s).addr = s.addr := rfl
@[simp] theorem setPort_cmd : (setPort ws s).cmd = s.cmd := rfl
@[simp] theorem setPort_csum : (setPort ws s).csum = s.csum := rfl
@[simp] theorem setPort_txPtr : (setPort ws s).txPtr = s.txPtr := rfl
@[simp] theorem setPort_mode : (setPort ws s).mode = s.mode := rfl
@[simp] theorem setPort_rep : (setPort ws s).rep = s.rep := rfl
@[simp] theorem setPort_trace : (setPort ws s).trace = s.trace := rfl
@[simp] theorem setPort_responses : (setPort ws s).responses = s.responses := rfl
@[simp] theorem setPort_port : (setPort ws s).port = ws := rfl
end

/-! `setFault` writes the fault register and nothing else. -/

section
variable (c : FaultCode)
@[simp] theorem setFault_buf : (setFault c s).buf = s.buf := rfl
@[simp] theorem setFault_idx : (setFault c s).idx = s.idx := rfl
@[simp] theorem setFault_pin : (setFault c s).pin = s.pin := rfl
@[simp] theorem setFault_pinValid : (setFault c s).pinValid = s.pinValid := rfl
@[simp] theorem setFault_fault : (setFault c s).fault = c := rfl
@[simp] theorem setFault_hcHi : (setFault c s).hcHi = s.hcHi := rfl
@[simp] theorem setFault_hcLo : (setFault c s).hcLo = s.hcLo := rfl
@[simp] theorem setFault_addr : (setFault c s).addr = s.addr := rfl
@[simp] theorem setFault_cmd : (setFault c s).cmd = s.cmd := rfl
@[simp] theorem setFault_csum : (setFault c s).csum = s.csum := rfl
@[simp] theorem setFault_txPtr : (setFault c s).txPtr = s.txPtr := rfl
@[simp] theorem setFault_mode : (setFault c s).mode = s.mode := rfl
@[simp] theorem setFault_rep : (setFault c s).rep = s.rep := rfl
@[simp] theorem setFault_trace : (setFault c s).trace = s.trace := rfl
@[simp] theorem setFault_responses : (setFault c s).responses = s.responses := rfl
@[simp] theorem setFault_port : (setFault c s).port = s.port := rfl
@[simp] theorem setFault_selectedPin : selectedPin (setFault c s) = selectedPin s := rfl
end

/-! What a guarded read of `PIN` gives. -/

theorem selectedPin_of {s : State} {p : Pin} (hv : s.pinValid = true) (hp : s.pin = some p) :
    selectedPin s = some p := by rw [selectedPin, if_pos hv, hp]

theorem selectedPin_uninit {s : State} (hv : s.pinValid = false) : selectedPin s = none := by simp [selectedPin, hv]

theorem selectedPin_noValue {s : State} (hp : s.pin = none) : selectedPin s = none := by simp [selectedPin, hp]

theorem selectedPin_eq_some {s : State} {p : Pin} : selectedPin s = some p ↔ s.pinValid = true ∧ s.pin = some p := by
  cases hv : s.pinValid <;> simp [selectedPin, hv]

/-! Two emissions are one. -/

@[simp] theorem emit_nil : emit [] s = s := by simp [emit]

theorem emit_emit (es fs : List Event) : emit fs (emit es s) = emit (es ++ fs) s := by simp [emit]

end Sys2Proof.Machine
end

