-- ==== Sys2Proof/Laws/Buffer.lean ====
section
/-! SUPPORT. What a push and a sequence of pushes do (spec/40_buffer.md R91): to the index, to each slot, to the
buffer's form, and to nothing else. -/

namespace Sys2Proof.Machine

/-- A push writes the buffer and its index and nothing else. -/
theorem push_frame (v : Symbol) (s : State) : push v s = setBuffer (push v s).buf (push v s).idx s := by
  unfold push
  split <;> rfl

/-- A push with room writes the slot at `IDX` and moves `IDX` on. -/
theorem push_room {v : Symbol} {s : State} (h : s.idx.toNat < 96) :
    push v s = setBuffer (s.buf.write s.idx.toNat v) (s.idx + 1) s := if_pos h

/-- A push on a full buffer is dropped. -/
theorem push_full {v : Symbol} {s : State} (h : 96 ≤ s.idx.toNat) : push v s = s := if_neg (Nat.not_lt.mpr h)

theorem push_idx {v : Symbol} {s : State} (h : s.idx.toNat < 96) : (push v s).idx.toNat = s.idx.toNat + 1 := by
  have h1 : (1 : SlotIx).toNat = 1 := rfl
  rw [push_room h, setBuffer_idx, BitVec.toNat_add, h1]
  omega

theorem push_wf {v : Symbol} {s : State} (hw : s.buf.wf) : (push v s).buf.wf := by
  by_cases h : s.idx.toNat < 96
  · rw [push_room h]
    exact Memory.wf_write hw h
  · rwa [push_full (Nat.not_lt.mp h)]

theorem push_read {v : Symbol} {s : State} (hw : s.buf.wf) (h : s.idx.toNat < 96) (i : Nat) :
    (push v s).buf.read i = if i = s.idx.toNat then v else s.buf.read i := by
  rw [push_room h]
  exact Memory.read_write hw _ _ _

/-! `push` field by field, the buffer and its index apart. -/

section
variable (v : Symbol) (s : State)
@[simp] theorem push_pin : (push v s).pin = s.pin := by
  rw [push_frame, setBuffer_pin]
@[simp] theorem push_pinValid : (push v s).pinValid = s.pinValid := by
  rw [push_frame, setBuffer_pinValid]
@[simp] theorem push_fault : (push v s).fault = s.fault := by
  rw [push_frame, setBuffer_fault]
@[simp] theorem push_hcHi : (push v s).hcHi = s.hcHi := by
  rw [push_frame, setBuffer_hcHi]
@[simp] theorem push_hcLo : (push v s).hcLo = s.hcLo := by
  rw [push_frame, setBuffer_hcLo]
@[simp] theorem push_addr : (push v s).addr = s.addr := by
  rw [push_frame, setBuffer_addr]
@[simp] theorem push_cmd : (push v s).cmd = s.cmd := by
  rw [push_frame, setBuffer_cmd]
@[simp] theorem push_csum : (push v s).csum = s.csum := by
  rw [push_frame, setBuffer_csum]
@[simp] theorem push_txPtr : (push v s).txPtr = s.txPtr := by
  rw [push_frame, setBuffer_txPtr]
@[simp] theorem push_mode : (push v s).mode = s.mode := by
  rw [push_frame, setBuffer_mode]
@[simp] theorem push_rep : (push v s).rep = s.rep := by
  rw [push_frame, setBuffer_rep]
@[simp] theorem push_trace : (push v s).trace = s.trace := by
  rw [push_frame, setBuffer_trace]
@[simp] theorem push_responses : (push v s).responses = s.responses := by
  rw [push_frame, setBuffer_responses]
@[simp] theorem push_port : (push v s).port = s.port := by
  rw [push_frame, setBuffer_port]
end

@[simp] theorem pushAll_nil (s : State) : pushAll [] s = s := rfl

@[simp] theorem pushAll_cons (v : Symbol) (vs : List Symbol) (s : State) :
    pushAll (v :: vs) s = pushAll vs (push v s) := rfl

theorem pushAll_append (vs ws : List Symbol) (s : State) : pushAll (vs ++ ws) s = pushAll ws (pushAll vs s) := by
  induction vs generalizing s with
  | nil => rfl
  | cons v vs ih => exact ih _

/-- A sequence of pushes writes the buffer and its index and nothing else. -/
theorem pushAll_frame (vs : List Symbol) (s : State) :
    pushAll vs s = setBuffer (pushAll vs s).buf (pushAll vs s).idx s := by
  induction vs generalizing s with
  | nil => rfl
  | cons v vs ih =>
    have hb : ∀ m i, setBuffer m i (push v s) = setBuffer m i s := fun m i => by
      rw [push_frame v s]
      rfl
    exact (ih (push v s)).trans (hb _ _)

/-- Every symbol pushed on a full buffer is dropped. -/
theorem pushAll_full {vs : List Symbol} {s : State} (h : 96 ≤ s.idx.toNat) : pushAll vs s = s := by
  induction vs with
  | nil => rfl
  | cons v vs ih => rw [pushAll_cons, push_full h, ih]

theorem pushAll_wf (vs : List Symbol) {s : State} (hw : s.buf.wf) : (pushAll vs s).buf.wf := by
  induction vs generalizing s with
  | nil => exact hw
  | cons v vs ih => exact ih (push_wf hw)

/-- The index rises by the number of symbols, and stops at `CAPACITY`. -/
theorem pushAll_idx (vs : List Symbol) {s : State} (h : s.idx.toNat ≤ 96) :
    (pushAll vs s).idx.toNat = min 96 (s.idx.toNat + vs.length) := by
  induction vs generalizing s with
  | nil => simp [h]
  | cons v vs ih =>
    rcases Nat.lt_or_ge s.idx.toNat 96 with hr | hf
    · have hp := push_idx (v := v) hr
      rw [pushAll_cons, ih (by omega), hp, List.length_cons]
      omega
    · rw [pushAll_full hf, List.length_cons]
      omega

/-- Slot `i` holds the symbol that was pushed on it if there was room for one, and otherwise what it held. -/
theorem pushAll_read (vs : List Symbol) {s : State} (hw : s.buf.wf) (h : s.idx.toNat ≤ 96) (i : Nat) :
    (pushAll vs s).buf.read i =
      if s.idx.toNat ≤ i ∧ i < 96 then (vs[i - s.idx.toNat]?).getD (s.buf.read i) else s.buf.read i := by
  induction vs generalizing s with
  | nil => simp
  | cons v vs ih =>
    rcases Nat.lt_or_ge s.idx.toNat 96 with hr | hf
    · rw [pushAll_cons, ih (push_wf hw) (by rw [push_idx hr]; omega), push_idx hr, push_read hw hr]
      by_cases hi : i = s.idx.toNat
      · simp [hi, hr]
      · by_cases hlt : s.idx.toNat ≤ i ∧ i < 96
        · have h1 : s.idx.toNat + 1 ≤ i ∧ i < 96 := by omega
          obtain ⟨k, hk⟩ : ∃ k, i - s.idx.toNat = k + 1 := ⟨i - s.idx.toNat - 1, by omega⟩
          have hk' : i - (s.idx.toNat + 1) = k := by omega
          simp [hi, hlt, h1, hk, hk']
        · have h1 : ¬ (s.idx.toNat + 1 ≤ i ∧ i < 96) := by omega
          rw [if_neg h1, if_neg hlt, if_neg hi]
    · have hn : ¬ (s.idx.toNat ≤ i ∧ i < 96) := by omega
      rw [pushAll_full hf, if_neg hn]

end Sys2Proof.Machine
end

