-- ==== Sys2Proof/Laws/Config.lean ====
section
/-! SUPPORT. The word types have the widths that the parameter table gives (spec/00_scope.md R6). -/

namespace Sys2Proof

theorem pin_width : Pin = BitVec Config.pinW := rfl

theorem symbol_width : Symbol = BitVec Config.symW := rfl

theorem cmdWord_width : CmdWord = BitVec Config.cmdW := rfl

/-- `IDX` and `TX_PTR` have room for every value in 0..`CAPACITY`. -/
theorem capacity_fits : Config.capacity < 2 ^ 7 := by decide

end Sys2Proof
end

