-- ==== Sys2Proof/Laws/Decode.lean ====
section
/-! SUPPORT. The fields of an encoded command word (spec/30_encoding.md R70), and the word of given fields. -/

namespace Sys2Proof

/-- Concatenation as a number. -/
theorem toNat_append_eq {m n : Nat} (x : BitVec m) (y : BitVec n) : (x ++ y).toNat = x.toNat * 2 ^ n + y.toNat := by
  rw [BitVec.toNat_append, ← Nat.shiftLeft_add_eq_or_of_lt y.isLt, Nat.shiftLeft_eq]

variable (op : BitVec 4) (hc : HomeCode) (a b : Byte) (f : Bool)

/-- A command word as a number: its fields at their places. -/
theorem cmdWord_toNat : (cmdWord op hc a b f).toNat =
    op.toNat * 2 ^ 36 + hc.toNat * 2 ^ 20 + a.toNat * 2 ^ 12 + b.toNat * 2 ^ 4 + f.toNat := by
  have hf : (BitVec.ofBool f).toNat = f.toNat := by cases f <;> rfl
  simp only [cmdWord, toNat_append_eq, hf, BitVec.toNat_ofNat]
  omega

@[simp] theorem opField_cmdWord : opField (cmdWord op hc a b f) = op := by
  have h1 := hc.isLt; have h2 := a.isLt; have h3 := b.isLt; have h4 := op.isLt; have h5 := f.toNat_lt
  apply BitVec.eq_of_toNat_eq
  rw [opField, BitVec.extractLsb_toNat, cmdWord_toNat, Nat.shiftRight_eq_div_pow]
  omega

@[simp] theorem hcField_cmdWord : hcField (cmdWord op hc a b f) = hc := by
  have h1 := hc.isLt; have h2 := a.isLt; have h3 := b.isLt; have h4 := op.isLt; have h5 := f.toNat_lt
  apply BitVec.eq_of_toNat_eq
  rw [hcField, BitVec.extractLsb_toNat, cmdWord_toNat, Nat.shiftRight_eq_div_pow]
  omega

@[simp] theorem adField_cmdWord : adField (cmdWord op hc a b f) = a := by
  have h1 := hc.isLt; have h2 := a.isLt; have h3 := b.isLt; have h4 := op.isLt; have h5 := f.toNat_lt
  apply BitVec.eq_of_toNat_eq
  rw [adField, BitVec.extractLsb_toNat, cmdWord_toNat, Nat.shiftRight_eq_div_pow]
  omega

@[simp] theorem bField_cmdWord : bField (cmdWord op hc a b f) = b := by
  have h1 := hc.isLt; have h2 := a.isLt; have h3 := b.isLt; have h4 := op.isLt; have h5 := f.toNat_lt
  apply BitVec.eq_of_toNat_eq
  rw [bField, BitVec.extractLsb_toNat, cmdWord_toNat, Nat.shiftRight_eq_div_pow]
  omega

@[simp] theorem zField_cmdWord : zField (cmdWord op hc a b f) = 0#3 := by
  have h5 := f.toNat_lt
  apply BitVec.eq_of_toNat_eq
  rw [zField, BitVec.extractLsb_toNat, cmdWord_toNat, Nat.shiftRight_eq_div_pow, BitVec.toNat_ofNat]
  omega

@[simp] theorem fField_cmdWord : fField (cmdWord op hc a b f) = f := by
  rw [fField, BitVec.getLsbD, cmdWord_toNat, Nat.testBit_zero]
  cases f <;> simp <;> omega

/-- Every word whose reserved field is 0 is the word of its fields. -/
theorem cmdWord_fields {w : CmdWord} (hz : zField w = 0#3) :
    cmdWord (opField w) (hcField w) (adField w) (bField w) (fField w) = w := by
  have hz' : w.toNat / 2 % 8 = 0 := by
    have h := congrArg BitVec.toNat hz
    rw [zField, BitVec.extractLsb_toNat, Nat.shiftRight_eq_div_pow, BitVec.toNat_ofNat] at h
    simpa using h
  have hf : (fField w).toNat = w.toNat % 2 := by
    rw [fField, BitVec.getLsbD, Nat.testBit_zero]
    rcases Nat.mod_two_eq_zero_or_one w.toNat with h | h <;> simp [h]
  have hw := w.isLt
  apply BitVec.eq_of_toNat_eq
  rw [cmdWord_toNat, hf, opField, hcField, adField, bField]
  simp only [BitVec.extractLsb_toNat, Nat.shiftRight_eq_div_pow]
  omega

/-- A word masked field by field. -/
theorem cmdWord_and (op' : BitVec 4) (hc' : HomeCode) (a' b' : Byte) (z' : BitVec 3) (f' : Bool) :
    cmdWord op hc a b f &&& (op' ++ hc' ++ a' ++ b' ++ z' ++ BitVec.ofBool f' : BitVec 40) =
      cmdWord (op &&& op') (hc &&& hc') (a &&& a') (b &&& b') (f && f') := by
  simp only [cmdWord]
  have hf : BitVec.ofBool (f && f') = BitVec.ofBool f &&& BitVec.ofBool f' := by cases f <;> cases f' <;> rfl
  have hz : (0#3 : BitVec 3) = 0#3 &&& z' := by simp
  rw [hf]
  refine (BitVec.and_append (x₁ := op ++ hc ++ a ++ b ++ 0#3)).trans ?_
  rw [BitVec.and_append, BitVec.and_append, BitVec.and_append, BitVec.and_append, ← hz]

/-- A word is 0 exactly when its fields are. -/
theorem cmdWord_eq_zero :
    cmdWord op hc a b f = 0#40 ↔ op = 0 ∧ hc = 0 ∧ a = 0 ∧ b = 0 ∧ f = false := by
  have hf : f = false ↔ f.toNat = 0 := by cases f <;> simp
  simp only [← BitVec.toNat_inj, cmdWord_toNat, hf]
  simp [and_assoc]

/-- The fields an operation does not use are 0, by opcode (R72). -/
def unusedFieldsZero (op : BitVec 4) (hc : HomeCode) (a b : Byte) (f : Bool) : Bool :=
  match op.toNat with
  | 0x1 => hc == 0 && a == 0 && !f
  | 0x2 => !f
  | 0x3 => b == 0
  | 0x4 => b == 0 && !f
  | 0x5 => !f
  | 0x8 => hc == 0 && a == 0 && b == 0 && !f
  | 0x9 => hc == 0 && a == 0 && !f
  | 0xA => hc == 0 && a == 0 && !f
  | 0xB => !f
  | 0xC => hc == 0 && a == 0 && b == 0 && !f
  | _ => true

/-- The mask test of `Decode` (R73) says that the unused fields are 0. -/
theorem unusedMask_iff {used : CmdWord} (hu : usedMask op = some used) :
    cmdWord op hc a b f &&& ~~~(0xF000000000#40 ||| used) = 0#40 ↔ unusedFieldsZero op hc a b f = true := by
  have key : ∀ (op' : BitVec 4) (hc' : HomeCode) (a' b' : Byte) (z' : BitVec 3) (f' : Bool),
      ~~~(0xF000000000#40 ||| used) = (op' ++ hc' ++ a' ++ b' ++ z' ++ BitVec.ofBool f' : BitVec 40) →
      (cmdWord op hc a b f &&& ~~~(0xF000000000#40 ||| used) = 0#40 ↔
        op &&& op' = 0 ∧ hc &&& hc' = 0 ∧ a &&& a' = 0 ∧ b &&& b' = 0 ∧ (f && f') = false) := by
    intro op' hc' a' b' z' f' hm
    rw [hm, cmdWord_and, cmdWord_eq_zero]
  have ones16 : ∀ x : HomeCode, x &&& 0xFFFF#16 = x := fun x => BitVec.and_allOnes
  have ones8 : ∀ x : Byte, x &&& 0xFF#8 = x := fun x => BitVec.and_allOnes
  obtain ⟨n, rfl⟩ : ∃ n : Fin 16, op = BitVec.ofFin n := ⟨op.toFin, rfl⟩
  fin_cases n
  all_goals first
    | (cases hu; done)
    | (obtain rfl := Option.some.inj hu
       first
         | (rw [key 0 0xFFFF 0xFF 0 7 true (by decide)]; simp [and_assoc, unusedFieldsZero, ones16, ones8])
         | (rw [key 0 0 0 0 7 true (by decide)]; simp [unusedFieldsZero])
         | (rw [key 0 0 0 0xFF 7 false (by decide)]; simp [unusedFieldsZero, ones8])
         | (rw [key 0 0 0 0xFF 7 true (by decide)]; simp [unusedFieldsZero, ones8])
         | (rw [key 0 0xFFFF 0xFF 0xFF 7 true (by decide)]; simp [and_assoc, unusedFieldsZero, ones16, ones8]))

/-- Decoding the word of given fields. -/
theorem decode_cmdWord : decode (cmdWord op hc a b f) =
    if usedMask op = none then .error .reservedOpcode
    else if unusedFieldsZero op hc a b f = true then operationOf op hc a b f else .error .unusedFieldSet := by
  simp only [decode, opField_cmdWord, zField_cmdWord, hcField_cmdWord, adField_cmdWord, bField_cmdWord, fField_cmdWord]
  cases hu : usedMask op with
  | none => simp
  | some used => cases h : unusedFieldsZero op hc a b f <;> simp [unusedMask_iff op hc a b f hu, h]

/-- Decoding a word whose reserved field is not 0. -/
theorem decode_of_zField {w : CmdWord} (hz : zField w ≠ 0#3) : ∃ e, decode w = .error e := by
  unfold decode
  split
  · exact ⟨_, rfl⟩
  · exact ⟨_, if_pos hz⟩

end Sys2Proof
end

