-- ==== Sys2Proof/Laws/Encoder.lean ====
section
/-! SUPPORT. What WRITEBYTE's and ASSEMBLE's pseudocode do (spec/41_encoder.md R114, R115): ASSEMBLE is sixty pushes on
a cleared buffer, so its result is the list of symbols pushed, whatever the buffer held before. -/

namespace Sys2Proof.Machine

@[simp] theorem byteSymbols_length (v : Byte) : (byteSymbols v).length = 9 := rfl

/-- A data symbol is never the END-MARKER and never the reserved code. -/
theorem dataSymbol_cases (b : Bool) : dataSymbol b = symZero ∨ dataSymbol b = symOne := by cases b <;> simp [dataSymbol]

/-- The symbols of a byte are data symbols. -/
theorem byteSymbols_data {v : Byte} {x : Symbol} (h : x ∈ byteSymbols v) : x = symZero ∨ x = symOne := by
  rcases List.mem_append.mp h with h | h
  · obtain ⟨b, -, rfl⟩ := List.mem_map.mp h
    exact dataSymbol_cases b
  · rw [List.mem_singleton.mp h]
    exact dataSymbol_cases _

theorem writeByte_frame (v : Byte) (s : State) :
    writeByte v s = setBuffer (writeByte v s).buf (writeByte v s).idx s := pushAll_frame _ _

theorem writeByte_wf (v : Byte) {s : State} (hw : s.buf.wf) : (writeByte v s).buf.wf := pushAll_wf _ hw

/-! `writeByte` field by field, the buffer and its index apart. -/

section
variable (v : Byte) (s : State)
@[simp] theorem writeByte_pin : (writeByte v s).pin = s.pin := by
  rw [writeByte_frame, setBuffer_pin]
@[simp] theorem writeByte_pinValid : (writeByte v s).pinValid = s.pinValid := by
  rw [writeByte_frame, setBuffer_pinValid]
@[simp] theorem writeByte_fault : (writeByte v s).fault = s.fault := by
  rw [writeByte_frame, setBuffer_fault]
@[simp] theorem writeByte_hcHi : (writeByte v s).hcHi = s.hcHi := by
  rw [writeByte_frame, setBuffer_hcHi]
@[simp] theorem writeByte_hcLo : (writeByte v s).hcLo = s.hcLo := by
  rw [writeByte_frame, setBuffer_hcLo]
@[simp] theorem writeByte_addr : (writeByte v s).addr = s.addr := by
  rw [writeByte_frame, setBuffer_addr]
@[simp] theorem writeByte_cmd : (writeByte v s).cmd = s.cmd := by
  rw [writeByte_frame, setBuffer_cmd]
@[simp] theorem writeByte_csum : (writeByte v s).csum = s.csum := by
  rw [writeByte_frame, setBuffer_csum]
@[simp] theorem writeByte_txPtr : (writeByte v s).txPtr = s.txPtr := by
  rw [writeByte_frame, setBuffer_txPtr]
@[simp] theorem writeByte_mode : (writeByte v s).mode = s.mode := by
  rw [writeByte_frame, setBuffer_mode]
@[simp] theorem writeByte_rep : (writeByte v s).rep = s.rep := by
  rw [writeByte_frame, setBuffer_rep]
@[simp] theorem writeByte_trace : (writeByte v s).trace = s.trace := by
  rw [writeByte_frame, setBuffer_trace]
@[simp] theorem writeByte_responses : (writeByte v s).responses = s.responses := by
  rw [writeByte_frame, setBuffer_responses]
@[simp] theorem writeByte_port : (writeByte v s).port = s.port := by
  rw [writeByte_frame, setBuffer_port]
end

/-- The 59 data symbols ASSEMBLE pushes, in order: steps 2 to 8. -/
def frameSymbols (hc : HomeCode) (a c : Byte) : List Symbol :=
  List.replicate Config.syncLen symZero ++ [symOne] ++ byteSymbols (homeCodeHigh hc) ++ byteSymbols (homeCodeLow hc) ++
    byteSymbols a ++ byteSymbols c ++ byteSymbols (checksum hc a c) ++ [symZero]

@[simp] theorem frameSymbols_length (hc : HomeCode) (a c : Byte) : (frameSymbols hc a c).length = 59 := rfl

/-- The symbols of a frame are data symbols. -/
theorem frameSymbols_data {hc : HomeCode} {a c : Byte} {x : Symbol} (h : x ∈ frameSymbols hc a c) :
    x = symZero ∨ x = symOne := by
  simp only [frameSymbols, List.mem_append, List.mem_singleton, List.mem_replicate] at h
  rcases h with ((((((⟨-, h⟩ | h) | h) | h) | h) | h) | h) | h
  · exact .inl h
  · exact .inr h
  all_goals first | exact byteSymbols_data h | exact .inl h

/-- ASSEMBLE pushes the frame and the END-MARKER on a cleared buffer. -/
theorem assembleTelegram_eq (hc : HomeCode) (a c : Byte) (s : State) :
    assembleTelegram hc a c s =
      pushAll (frameSymbols hc a c ++ [symEnd]) (clearBuffer (loadLatches hc a c s)) := by
  simp only [frameSymbols, pushAll_append, pushAll_cons, pushAll_nil]
  rfl

/-- ASSEMBLE writes the latches, the buffer and its index and nothing else. -/
theorem assembleTelegram_frame (hc : HomeCode) (a c : Byte) (s : State) :
    assembleTelegram hc a c s =
      setBuffer (assembleTelegram hc a c s).buf (assembleTelegram hc a c s).idx (loadLatches hc a c s) := by
  rw [assembleTelegram_eq]
  exact pushAll_frame _ _

/-! `assembleTelegram` field by field, the buffer and its index apart. -/

section
variable (hc : HomeCode) (a c : Byte) (s : State)
@[simp] theorem assembleTelegram_pin : (assembleTelegram hc a c s).pin = s.pin := by
  rw [assembleTelegram_frame, setBuffer_pin, loadLatches, setLatches_pin]
@[simp] theorem assembleTelegram_pinValid : (assembleTelegram hc a c s).pinValid = s.pinValid := by
  rw [assembleTelegram_frame, setBuffer_pinValid, loadLatches, setLatches_pinValid]
@[simp] theorem assembleTelegram_fault : (assembleTelegram hc a c s).fault = s.fault := by
  rw [assembleTelegram_frame, setBuffer_fault, loadLatches, setLatches_fault]
@[simp] theorem assembleTelegram_hcHi : (assembleTelegram hc a c s).hcHi = homeCodeHigh hc := by
  rw [assembleTelegram_frame, setBuffer_hcHi, loadLatches, setLatches_hcHi]
@[simp] theorem assembleTelegram_hcLo : (assembleTelegram hc a c s).hcLo = homeCodeLow hc := by
  rw [assembleTelegram_frame, setBuffer_hcLo, loadLatches, setLatches_hcLo]
@[simp] theorem assembleTelegram_addr : (assembleTelegram hc a c s).addr = a := by
  rw [assembleTelegram_frame, setBuffer_addr, loadLatches, setLatches_addr]
@[simp] theorem assembleTelegram_cmd : (assembleTelegram hc a c s).cmd = c := by
  rw [assembleTelegram_frame, setBuffer_cmd, loadLatches, setLatches_cmd]
@[simp] theorem assembleTelegram_csum : (assembleTelegram hc a c s).csum = checksum hc a c := by
  rw [assembleTelegram_frame, setBuffer_csum, loadLatches, setLatches_csum]
@[simp] theorem assembleTelegram_txPtr : (assembleTelegram hc a c s).txPtr = s.txPtr := by
  rw [assembleTelegram_frame, setBuffer_txPtr, loadLatches, setLatches_txPtr]
@[simp] theorem assembleTelegram_mode : (assembleTelegram hc a c s).mode = s.mode := by
  rw [assembleTelegram_frame, setBuffer_mode, loadLatches, setLatches_mode]
@[simp] theorem assembleTelegram_rep : (assembleTelegram hc a c s).rep = s.rep := by
  rw [assembleTelegram_frame, setBuffer_rep, loadLatches, setLatches_rep]
@[simp] theorem assembleTelegram_trace : (assembleTelegram hc a c s).trace = s.trace := by
  rw [assembleTelegram_frame, setBuffer_trace, loadLatches, setLatches_trace]
@[simp] theorem assembleTelegram_responses : (assembleTelegram hc a c s).responses = s.responses := by
  rw [assembleTelegram_frame, setBuffer_responses, loadLatches, setLatches_responses]
@[simp] theorem assembleTelegram_port : (assembleTelegram hc a c s).port = s.port := by
  rw [assembleTelegram_frame, setBuffer_port, loadLatches, setLatches_port]
end

theorem assembleTelegram_wf (hc : HomeCode) (a c : Byte) (s : State) : (assembleTelegram hc a c s).buf.wf := by
  rw [assembleTelegram_eq]
  exact pushAll_wf _ Memory.wf_cleared

/-- After ASSEMBLE `IDX` is 60 (R116). -/
theorem assembleTelegram_idx (hc : HomeCode) (a c : Byte) (s : State) : (assembleTelegram hc a c s).idx = 60 := by
  have hz : (clearBuffer (loadLatches hc a c s)).idx.toNat = 0 := rfl
  apply BitVec.eq_of_toNat_eq
  rw [assembleTelegram_eq, pushAll_idx _ (by omega), hz]
  simp

/-- Slot `i` after ASSEMBLE: the symbol pushed on it, and `SYM_ZERO` above the END-MARKER. -/
theorem assembleTelegram_read (hc : HomeCode) (a c : Byte) (s : State) (i : Nat) :
    (assembleTelegram hc a c s).buf.read i = ((frameSymbols hc a c ++ [symEnd])[i]?).getD symZero := by
  have hz : (clearBuffer (loadLatches hc a c s)).idx.toNat = 0 := rfl
  have hr : ∀ j, (clearBuffer (loadLatches hc a c s)).buf.read j = symZero := fun j => rfl
  rw [assembleTelegram_eq, pushAll_read _ Memory.wf_cleared (by omega), hz, hr]
  split
  · rfl
  · have hi : (frameSymbols hc a c ++ [symEnd]).length ≤ i := by
      simp only [List.length_append, frameSymbols_length, List.length_singleton]
      omega
    rw [List.getElem?_eq_none hi]
    rfl

end Sys2Proof.Machine
end

