-- ==== Sys2Proof/Laws/Trace.lean ====
section
/-! SUPPORT. Small laws of traces: sleep time and whole pulses of a trace made of two. -/

namespace Sys2Proof.Machine

@[simp] theorem sleepTime_append (es fs : List Event) : sleepTime (es ++ fs) = sleepTime es + sleepTime fs := by
  induction es with
  | nil => simp [sleepTime]
  | cons e es ih => cases e <;> simp [sleepTime, ih, Nat.add_assoc]

/-- A trace of whole pulses followed by another is one of whole pulses. -/
theorem pulsesPaired_append {es fs : List Event} (he : pulsesPaired es = true) (hf : pulsesPaired fs = true) :
    pulsesPaired (es ++ fs) = true := by
  induction es using pulsesPaired.induct with
  | case1 => simpa using hf
  | case2 p u q v es ih =>
    simp only [pulsesPaired, Bool.and_eq_true, List.cons_append] at he ⊢
    exact ⟨he.1, ih he.2⟩
  | case3 => simp [pulsesPaired] at he
  | case4 p es ih => simpa [pulsesPaired] using ih (by simpa [pulsesPaired] using he)
  | case5 u es ih => simpa [pulsesPaired] using ih (by simpa [pulsesPaired] using he)

/-- The events of a symbol are a whole pulse or nothing. -/
theorem pulsesPaired_symbolEvents (p : Pin) (v : Symbol) : pulsesPaired (symbolEvents p v) = true := by
  unfold symbolEvents
  split
  · simp [pulsesPaired, Config.t0HighUs, Config.t0LowUs]
  · split
    · simp [pulsesPaired, Config.t1HighUs, Config.t1LowUs]
    · rfl

theorem pulsesPaired_flatMap (p : Pin) (vs : List Symbol) : pulsesPaired (vs.flatMap (symbolEvents p)) = true := by
  induction vs with
  | nil => rfl
  | cons v vs ih => exact pulsesPaired_append (pulsesPaired_symbolEvents p v) ih

end Sys2Proof.Machine
end

