-- ==== Sys2Proof/Laws/Transmit.lean ====
section
/-! SUPPORT. What TRANSMIT's walk does, once (spec/42_transmit.md R133, R135): it sends the data symbols from
`TX_PTR` on, in order, and stops at the first slot that holds none. -/

namespace Sys2Proof.Machine

/-- The slots the walk can still read, from `TX_PTR` on. -/
def slotsFrom (s : State) (n : Nat) : List Symbol := (List.range' s.txPtr.toNat n).map s.buf.read

/-- The state after the walk has sent `vs` on pin `p`. -/
def afterSending (p : Pin) (vs : List Symbol) (s : State) : State :=
  setTxPtr (BitVec.ofNat 7 (s.txPtr.toNat + vs.length)) (emit (vs.flatMap (symbolEvents p)) s)

/-- The end of the walk by the symbol it stops at: the reserved code raises `RESERVED_SYMBOL`, anything else ends it. -/
def endWalk (stop : Option Symbol) (s : State) : CmdResult :=
  if stop = some symReserved then raise .reservedSymbol s else .done s

theorem symbol_cases (v : Symbol) : v = symZero ∨ v = symOne ∨ v = symEnd ∨ v = symReserved := by
  revert v
  decide

/-- The whole walk. -/
theorem walkBuffer_eq {p : Pin} (n : Nat) {s : State} (hn : s.txPtr.toNat + n = 96) :
    walkBuffer p n s =
      endWalk ((slotsFrom s n).dropWhile isData).head? (afterSending p ((slotsFrom s n).takeWhile isData) s) := by
  induction n generalizing s with
  | zero => simp [walkBuffer, slotsFrom, endWalk, afterSending, setTxPtr]
  | succ n ih =>
    have hlt : s.txPtr.toNat < Config.capacity := show s.txPtr.toNat < 96 by omega
    have hcons : slotsFrom s (n + 1) =
        s.buf.read s.txPtr.toNat :: (List.range' (s.txPtr.toNat + 1) n).map s.buf.read := rfl
    rw [hcons]
    simp only [walkBuffer, if_pos hlt]
    by_cases hd : isData (s.buf.read s.txPtr.toNat) = true
    · have hne : s.buf.read s.txPtr.toNat ≠ symEnd ∧ s.buf.read s.txPtr.toNat ≠ symReserved := by
        generalize s.buf.read s.txPtr.toNat = v at hd
        revert v
        decide
      have hnext : (s.txPtr + 1).toNat = s.txPtr.toNat + 1 := by
        have h1 : (1 : SlotIx).toNat = 1 := rfl
        rw [BitVec.toNat_add, h1]
        omega
      have hsimp : (s.txPtr + 1#7).toNat = s.txPtr.toNat + 1 := hnext
      rw [if_neg hne.1, if_neg hne.2, ih (by rw [setTxPtr_txPtr, hnext]; omega),
        List.takeWhile_cons_of_pos hd, List.dropWhile_cons_of_pos hd]
      simp [-BitVec.toNat_add, slotsFrom, afterSending, hsimp, setTxPtr, emit, Nat.add_assoc, Nat.add_comm 1]
    · have hs : s.buf.read s.txPtr.toNat = symEnd ∨ s.buf.read s.txPtr.toNat = symReserved := by
        generalize s.buf.read s.txPtr.toNat = v at hd
        revert v
        decide
      rw [List.takeWhile_cons_of_neg hd, List.dropWhile_cons_of_neg hd]
      have h0 : afterSending p [] s = s := by simp [afterSending, setTxPtr]
      rcases hs with hs | hs
      · rw [if_pos hs, hs, h0]
        rfl
      · rw [hs, if_neg (by decide), if_pos rfl, h0]
        rfl

/-- TRANSMIT on an empty buffer does nothing (R132). -/
theorem transmitBuffer_empty {s : State} (h : s.idx = 0) : transmitBuffer s = .done s := if_pos h

/-- TRANSMIT on a non-empty buffer with no pin to read (R183). -/
theorem transmitBuffer_uninit {s : State} (h : s.idx ≠ 0) (hp : selectedPin s = none) :
    transmitBuffer s = raise .notInitialised s := by rw [transmitBuffer, if_neg h, hp]

/-- TRANSMIT on a non-empty buffer with a pin: the walk over all 96 slots. -/
theorem transmitBuffer_walk {p : Pin} {s : State} (h : s.idx ≠ 0) (hv : s.pinValid = true) (hp : s.pin = some p) :
    transmitBuffer s =
      endWalk (stopSymbol s) (afterSending p ((slotSymbols s).takeWhile isData) (setTxPtr 0 s)) := by
  have hr : slotsFrom (setTxPtr 0 s) Config.capacity = slotSymbols s := by
    simp [slotsFrom, slotSymbols, Config.capacity, List.range_eq_range']
  rw [transmitBuffer, if_neg h, selectedPin_of hv hp]
  simp only []
  rw [walkBuffer_eq _ (by simp [Config.capacity]), hr]
  rfl

/-- Everything a walk can do, from any state: it ends after sending some whole pulses with the pointer still in range,
or it raises `RESERVED_SYMBOL` after them because some slot holds the reserved code. -/
theorem walkBuffer_ends (p : Pin) (n : Nat) {s : State} (h : s.txPtr.toNat ≤ 96) :
    ∃ es i, pulsesPaired es = true ∧ i.toNat ≤ 96 ∧
      (walkBuffer p n s = .done (setTxPtr i (emit es s)) ∨
        (walkBuffer p n s = raise .reservedSymbol (setTxPtr i (emit es s)) ∧
          ∃ k, k < 96 ∧ s.buf.read k = symReserved)) := by
  have here : setTxPtr s.txPtr (emit [] s) = s := by simp [setTxPtr]
  induction n generalizing s with
  | zero => exact ⟨[], s.txPtr, rfl, h, .inl (by rw [here]; rfl)⟩
  | succ n ih =>
    simp only [walkBuffer]
    split
    · rename_i hlt
      split
      · exact ⟨[], s.txPtr, rfl, h, .inl (by rw [here])⟩
      · split
        · exact ⟨[], s.txPtr, rfl, h, .inr ⟨by rw [here], _, hlt, ‹_›⟩⟩
        · have hlt' : s.txPtr.toNat < 96 := hlt
          have h1 : (1 : SlotIx).toNat = 1 := rfl
          have hnext : (s.txPtr + 1).toNat ≤ 96 := by
            rw [BitVec.toNat_add, h1]
            omega
          have hput : ∀ t : State, setTxPtr t.txPtr (emit [] t) = t := fun t => by simp [setTxPtr]
          obtain ⟨es, i, hes, hi, hw⟩ :=
            ih (s := setTxPtr (s.txPtr + 1) (emit (symbolEvents p (s.buf.read s.txPtr.toNat)) s)) hnext (hput _)
          refine ⟨symbolEvents p (s.buf.read s.txPtr.toNat) ++ es, i,
            pulsesPaired_append (pulsesPaired_symbolEvents p _) hes, hi, ?_⟩
          have hjoin : ∀ ds : List Event, setTxPtr i (emit es (setTxPtr (s.txPtr + 1) (emit ds s))) =
              setTxPtr i (emit (ds ++ es) s) := fun ds => by simp [setTxPtr, emit]
          rw [hjoin] at hw
          exact hw
    · exact ⟨[], s.txPtr, rfl, h, .inl (by rw [here])⟩

/-- Everything TRANSMIT can do, from any state. -/
theorem transmitBuffer_ends (s : State) :
    (transmitBuffer s = raise .notInitialised s ∧ s.idx ≠ 0 ∧ selectedPin s = none) ∨
      ∃ es i, pulsesPaired es = true ∧ (i = s.txPtr ∨ i.toNat ≤ 96) ∧
        (transmitBuffer s = .done (setTxPtr i (emit es s)) ∨
          (transmitBuffer s = raise .reservedSymbol (setTxPtr i (emit es s)) ∧
            ∃ k, k < 96 ∧ s.buf.read k = symReserved)) := by
  by_cases h : s.idx = 0
  · exact .inr ⟨[], s.txPtr, rfl, .inl rfl, .inl (by rw [transmitBuffer_empty h]; simp [setTxPtr])⟩
  · cases hp : selectedPin s with
    | none => exact .inl ⟨transmitBuffer_uninit h hp, h, rfl⟩
    | some p =>
      have ht : transmitBuffer s = walkBuffer p Config.capacity (setTxPtr 0 s) := by
        rw [transmitBuffer, if_neg h, hp]
      rw [ht]
      have hjoin : ∀ (i : SlotIx) (es : List Event),
          setTxPtr i (emit es (setTxPtr 0 s)) = setTxPtr i (emit es s) := fun _ _ => rfl
      obtain ⟨es, i, hes, hi, hw⟩ := walkBuffer_ends p Config.capacity (s := setTxPtr 0 s) (by simp)
      rw [hjoin] at hw
      exact .inr ⟨es, i, hes, .inr hi, hw⟩

end Sys2Proof.Machine
end

