-- ==== Sys2Proof/Laws/Orchestrator.lean ====
section
/-! SUPPORT. What a send does (spec/43_orchestrator.md R152): each repetition assembles the same telegram, whatever the
buffer held, and its TRANSMIT always runs to the END-MARKER. -/

namespace Sys2Proof.Machine

/-- The buffer and its index after a sequence of pushes depend on the buffer and the index before it alone. -/
theorem pushAll_congr (vs : List Symbol) {s t : State} (hb : s.buf = t.buf) (hi : s.idx = t.idx) :
    (pushAll vs s).buf = (pushAll vs t).buf := by
  induction vs generalizing s t with
  | nil => exact hb
  | cons v vs ih =>
    have hp : (push v s).buf = (push v t).buf ∧ (push v s).idx = (push v t).idx := by
      unfold push
      rw [hb, hi]
      split <;> simp [hb, hi]
    exact ih hp.1 hp.2

/-- The buffer that ASSEMBLE leaves. Its slots are read by `telegramBuffer_read`. -/
@[irreducible] def telegramBuffer (hc : HomeCode) (a c : Byte) : Memory := (assembleTelegram hc a c State.reset).buf

theorem assembleTelegram_buf (hc : HomeCode) (a c : Byte) (s : State) :
    (assembleTelegram hc a c s).buf = telegramBuffer hc a c := by
  have hs := congrArg State.buf (assembleTelegram_eq hc a c s)
  have hr := congrArg State.buf (assembleTelegram_eq hc a c State.reset)
  have hp : (pushAll (frameSymbols hc a c ++ [symEnd]) (clearBuffer (loadLatches hc a c s))).buf =
      (pushAll (frameSymbols hc a c ++ [symEnd]) (clearBuffer (loadLatches hc a c State.reset))).buf :=
    pushAll_congr _ (by simp [clearBuffer]) (by simp [clearBuffer])
  unfold telegramBuffer
  exact hs.trans (hp.trans hr.symm)

/-- ASSEMBLE as one update of the state: no field depends on the buffer before. -/
theorem assembleTelegram_state (hc : HomeCode) (a c : Byte) (s : State) :
    assembleTelegram hc a c s = setBuffer (telegramBuffer hc a c) 60 (loadLatches hc a c s) := by
  rw [assembleTelegram_frame, assembleTelegram_buf, assembleTelegram_idx]

theorem telegramBuffer_read (hc : HomeCode) (a c : Byte) (i : Nat) :
    (telegramBuffer hc a c).read i = ((frameSymbols hc a c ++ [symEnd])[i]?).getD symZero := by
  unfold telegramBuffer
  exact assembleTelegram_read hc a c State.reset i

theorem telegramBuffer_wf (hc : HomeCode) (a c : Byte) : (telegramBuffer hc a c).wf := by
  unfold telegramBuffer
  exact assembleTelegram_wf hc a c State.reset

/-- The slots of an assembled buffer: the frame, the END-MARKER, and cleared slots. -/
theorem slotSymbols_assembled {hc : HomeCode} {a c : Byte} {s : State} (h : s.buf = telegramBuffer hc a c) :
    slotSymbols s = frameSymbols hc a c ++ symEnd :: List.replicate 36 symZero := by
  apply List.ext_getElem
  · simp [slotSymbols]
  · intro i h1 h2
    simp only [slotSymbols, List.getElem_map, List.getElem_range, h, telegramBuffer_read]
    have hsplit : frameSymbols hc a c ++ symEnd :: List.replicate 36 symZero =
        (frameSymbols hc a c ++ [symEnd]) ++ List.replicate 36 symZero := by simp
    rcases Nat.lt_or_ge i 60 with hi | hi
    · have hl : i < (frameSymbols hc a c ++ [symEnd]).length := by simpa using hi
      rw [List.getElem?_eq_getElem hl]
      simp only [hsplit, Option.getD_some]
      exact (List.getElem_append_left hl).symm
    · have hl : (frameSymbols hc a c ++ [symEnd]).length ≤ i := by simpa using hi
      rw [List.getElem?_eq_none hl]
      simp only [hsplit, Option.getD_none]
      rw [List.getElem_append_right hl]
      exact (List.getElem_replicate _).symm

theorem isData_of_frame {hc : HomeCode} {a c : Byte} : ∀ x ∈ frameSymbols hc a c, isData x = true := by
  intro x hx
  rcases frameSymbols_data hx with rfl | rfl <;> rfl

theorem takeWhile_assembled {hc : HomeCode} {a c : Byte} {s : State} (h : s.buf = telegramBuffer hc a c) :
    (slotSymbols s).takeWhile isData = frameSymbols hc a c := by
  rw [slotSymbols_assembled h, List.takeWhile_append_of_pos isData_of_frame,
    List.takeWhile_cons_of_neg (by decide), List.append_nil]

theorem stopSymbol_assembled {hc : HomeCode} {a c : Byte} {s : State} (h : s.buf = telegramBuffer hc a c) :
    stopSymbol s = some symEnd := by
  rw [stopSymbol, slotSymbols_assembled h, List.dropWhile_append_of_pos isData_of_frame,
    List.dropWhile_cons_of_neg (by decide), List.head?_cons]

/-- TRANSMIT of an assembled buffer sends the frame and stops at slot 59 (R136). -/
theorem transmitBuffer_assembled {hc : HomeCode} {a c : Byte} {p : Pin} {s : State} (hv : s.pinValid = true)
    (hp : s.pin = some p) :
    transmitBuffer (assembleTelegram hc a c s) =
      .done (setTxPtr 59 (emit ((frameSymbols hc a c).flatMap (symbolEvents p)) (assembleTelegram hc a c s))) := by
  have hb := assembleTelegram_buf hc a c s
  have hi : (assembleTelegram hc a c s).idx ≠ 0 := by
    rw [assembleTelegram_idx]
    decide
  have hz : ((0 : SlotIx).toNat + 59) = 59 := rfl
  rw [transmitBuffer_walk hi (by simpa using hv) (by simpa using hp), takeWhile_assembled hb, stopSymbol_assembled hb,
    endWalk, if_neg (by decide), afterSending, setTxPtr_txPtr, frameSymbols_length, hz]
  simp only [setTxPtr, emit]
  rfl

/-- The state a send leaves (R152, R153). -/
def afterSend (hc : HomeCode) (a c : Byte) (p : Pin) (s : State) : State :=
  let w := (frameSymbols hc a c).flatMap (symbolEvents p)
  setBuffer (telegramBuffer hc a c) 60 (loadLatches hc a c (setTxPtr 59 (setRep 2
    (emit (w ++ [.sleep Config.gapUs] ++ w ++ [.sleep Config.gapUs] ++ w) s))))

/-! `afterSend` field by field. -/

section
variable (hc : HomeCode) (a c : Byte) (p : Pin) (s : State)
@[simp] theorem afterSend_buf : (afterSend hc a c p s).buf = telegramBuffer hc a c := rfl
@[simp] theorem afterSend_idx : (afterSend hc a c p s).idx = 60 := rfl
@[simp] theorem afterSend_pin : (afterSend hc a c p s).pin = s.pin := rfl
@[simp] theorem afterSend_pinValid : (afterSend hc a c p s).pinValid = s.pinValid := rfl
@[simp] theorem afterSend_fault : (afterSend hc a c p s).fault = s.fault := rfl
@[simp] theorem afterSend_hcHi : (afterSend hc a c p s).hcHi = homeCodeHigh hc := rfl
@[simp] theorem afterSend_hcLo : (afterSend hc a c p s).hcLo = homeCodeLow hc := rfl
@[simp] theorem afterSend_addr : (afterSend hc a c p s).addr = a := rfl
@[simp] theorem afterSend_cmd : (afterSend hc a c p s).cmd = c := rfl
@[simp] theorem afterSend_csum : (afterSend hc a c p s).csum = checksum hc a c := rfl
@[simp] theorem afterSend_txPtr : (afterSend hc a c p s).txPtr = 59 := rfl
@[simp] theorem afterSend_mode : (afterSend hc a c p s).mode = s.mode := rfl
@[simp] theorem afterSend_rep : (afterSend hc a c p s).rep = 2 := rfl
theorem afterSend_trace : (afterSend hc a c p s).trace =
    s.trace ++ ((frameSymbols hc a c).flatMap (symbolEvents p) ++ [.sleep Config.gapUs] ++
      (frameSymbols hc a c).flatMap (symbolEvents p) ++ [.sleep Config.gapUs] ++
      (frameSymbols hc a c).flatMap (symbolEvents p)) := rfl
@[simp] theorem afterSend_responses : (afterSend hc a c p s).responses = s.responses := rfl
@[simp] theorem afterSend_port : (afterSend hc a c p s).port = s.port := rfl
end

/-- One repetition, then what is left. -/
theorem sendRepetitions_succ {hc : HomeCode} {a c : Byte} {p : Pin} (left : Nat) {s : State} (hv : s.pinValid = true)
    (hp : s.pin = some p) :
    sendRepetitions hc a c (left + 1) s =
      (let r := BitVec.ofNat 2 (Config.repeats - (left + 1))
       let w := (frameSymbols hc a c).flatMap (symbolEvents p)
       let t := setTxPtr 59 (emit w (setBuffer (telegramBuffer hc a c) 60 (loadLatches hc a c (setRep r s))))
       sendRepetitions hc a c left (if r.toNat < Config.repeats - 1 then emit [.sleep Config.gapUs] t else t)) := by
  have ht := transmitBuffer_assembled (hc := hc) (a := a) (c := c) (p := p)
    (s := setRep (BitVec.ofNat 2 (Config.repeats - (left + 1))) s) (by simpa using hv) (by simpa using hp)
  simp only [sendRepetitions, ht, CmdResult.andThen]
  simp only [assembleTelegram_state, setTxPtr_rep, emit_rep, setBuffer_rep, loadLatches, setLatches_rep, setRep_rep]

/-- A send with a pin always runs to its end. -/
theorem sendTelegram_eq {hc : HomeCode} {a c : Byte} {p : Pin} {s : State} (hv : s.pinValid = true)
    (hp : s.pin = some p) : sendTelegram hc a c s = .done (afterSend hc a c p s) := by
  have h0 : (BitVec.ofNat 2 (Config.repeats - 3)).toNat < Config.repeats - 1 := by decide
  have h1 : (BitVec.ofNat 2 (Config.repeats - 2)).toNat < Config.repeats - 1 := by decide
  have h2 : ¬ (BitVec.ofNat 2 (Config.repeats - 1)).toNat < Config.repeats - 1 := by decide
  rw [sendTelegram, selectedPin_of hv hp]
  show sendRepetitions hc a c 3 s = _
  rw [sendRepetitions_succ 2 hv hp]
  simp only [h0, if_true]
  rw [sendRepetitions_succ (p := p) 1 (by simpa [loadLatches] using hv) (by simpa [loadLatches] using hp)]
  simp only [h1, if_true]
  rw [sendRepetitions_succ (p := p) 0 (by simpa [loadLatches] using hv) (by simpa [loadLatches] using hp)]
  simp only [h2, if_false, sendRepetitions]
  simp [afterSend, setBuffer, loadLatches, setLatches, setTxPtr, setRep, emit, Config.repeats]

theorem sendTelegram_uninit {hc : HomeCode} {a c : Byte} {s : State} (hp : selectedPin s = none) :
    sendTelegram hc a c s = raise .notInitialised s := by rw [sendTelegram, hp]

end Sys2Proof.Machine
end

