-- ==== Sys2Proof/Laws/Exec.lean ====
section
/-! SUPPORT. Everything a command can do, said once: the inversion of `exec` at a next state, from any state. -/

namespace Sys2Proof.Machine

/-- A command's outcome is a next state when the command ran to its end or raised a fault. -/
theorem CmdResult.outcome_next {r : CmdResult} {t : State} :
    r.outcome = .next t ↔ r = .done t ∨ r = .raised t := by
  cases r <;> simp [CmdResult.outcome]

/-! The meaning of each command, by name. -/

section
variable (pin : Pin) (hc : HomeCode) (a b : Byte) (on : Bool) (s : State)
theorem exec_init : exec (.init pin) s = .next (respond true (emit [.setDirOut pin] (setPin pin s))) := rfl
theorem exec_send : exec (.send hc a b) s = (sendTelegram hc a b s).outcome := rfl
theorem exec_switch : exec (.switch hc a on) s = (sendTelegram hc a (switchCommand on) s).outcome := rfl
theorem exec_toggle : exec (.toggle hc a) s = (sendTelegram hc a Config.cmdToggle s).outcome := rfl
theorem exec_dim : exec (.dim hc a b) s = (dimReceiver hc a b s).outcome := rfl
theorem exec_clear : exec .clear s = .next (clearBuffer s) := rfl
theorem exec_push0 : exec .push0 s = .next (push symZero s) := rfl
theorem exec_push1 : exec .push1 s = .next (push symOne s) := rfl
theorem exec_pushEnd : exec .pushEnd s = .next (push symEnd s) := rfl
theorem exec_writeByte : exec (.writeByte b) s = .next (writeByte b s) := rfl
theorem exec_assemble : exec (.assemble hc a b) s = .next (assembleTelegram hc a b s) := rfl
theorem exec_transmit : exec .transmit s = (transmitBuffer s).outcome := rfl
end

/-- Everything a send can do, from any state. -/
theorem sendTelegram_ends (hc : HomeCode) (a c : Byte) (s : State) :
    (sendTelegram hc a c s = raise .notInitialised s ∧ selectedPin s = none) ∨
      ∃ p, s.pinValid = true ∧ s.pin = some p ∧ sendTelegram hc a c s = .done (afterSend hc a c p s) := by
  cases hs : selectedPin s with
  | none => exact .inl ⟨sendTelegram_uninit hs, rfl⟩
  | some p =>
    obtain ⟨hv, hp⟩ := selectedPin_eq_some.mp hs
    exact .inr ⟨p, hv, hp, sendTelegram_eq hv hp⟩

/-- What one command can have done when it answers a next state. -/
inductive ExecEnds (s : State) : Instr → State → Prop
  /-- INIT selected its pin. -/
  | selected (p : Pin) : ExecEnds s (.init p) (respond true (emit [.setDirOut p] (setPin p s)))
  /-- A command that drives the line found no pin to read. -/
  | uninitialised (i : Instr) (hi : ∀ q, i ≠ .init q) (hp : selectedPin s = none) :
      ExecEnds s i (setFault .notInitialised s)
  /-- CLEAR. -/
  | cleared : ExecEnds s .clear (clearBuffer s)
  /-- A PUSH of a symbol that is not the reserved code. -/
  | pushed (i : Instr) (hi : ∀ q, i ≠ .init q) (v : Symbol) (hr : v ≠ symReserved) : ExecEnds s i (push v s)
  /-- WRITEBYTE. -/
  | wrote (v : Byte) : ExecEnds s (.writeByte v) (writeByte v s)
  /-- ASSEMBLE. -/
  | assembled (hc : HomeCode) (a c : Byte) : ExecEnds s (.assemble hc a c) (assembleTelegram hc a c s)
  /-- TRANSMIT sent some whole pulses and ended. -/
  | walked (es : List Event) (k : SlotIx) (he : pulsesPaired es = true) (hk : k = s.txPtr ∨ k.toNat ≤ 96) :
      ExecEnds s .transmit (setTxPtr k (emit es s))
  /-- TRANSMIT sent some whole pulses and met the reserved code. -/
  | metReserved (es : List Event) (k : SlotIx) (he : pulsesPaired es = true) (hk : k = s.txPtr ∨ k.toNat ≤ 96)
      (hr : ∃ j, j < 96 ∧ s.buf.read j = symReserved) :
      ExecEnds s .transmit (setFault .reservedSymbol (setTxPtr k (emit es s)))
  /-- SEND, SWITCH, TOGGLE or DIM sent a telegram. -/
  | sent (i : Instr) (hi : ∀ q, i ≠ .init q) (hc : HomeCode) (a c : Byte) (p : Pin) (hv : s.pinValid = true)
      (hp : s.pin = some p) : ExecEnds s i (afterSend hc a c p s)
  /-- DIM above its bound. -/
  | ignored (hc : HomeCode) (a level : Byte) : ExecEnds s (.dim hc a level) s

/-- A send's next state, for whichever command called it. -/
theorem execEnds_of_send {i : Instr} (hi : ∀ q, i ≠ .init q) {hc : HomeCode} {a c : Byte} {s t : State}
    (h : (sendTelegram hc a c s).outcome = .next t) : ExecEnds s i t := by
  rcases sendTelegram_ends hc a c s with ⟨he, hn⟩ | ⟨p, hv, hp, he⟩
  all_goals rw [he] at h
  · exact Host.Outcome.next.inj h ▸ .uninitialised i hi hn
  · exact Host.Outcome.next.inj h ▸ .sent i hi hc a c p hv hp

/-- Everything a command can do: if `exec` answers a next state, it is one of these. -/
theorem exec_ends {i : Instr} {s t : State} (h : exec i s = .next t) : ExecEnds s i t := by
  cases i with
  | init p => exact Host.Outcome.next.inj h ▸ .selected p
  | send hc a c => exact execEnds_of_send (by simp) h
  | switch hc a on => exact execEnds_of_send (by simp) h
  | toggle hc a => exact execEnds_of_send (by simp) h
  | dim hc a level =>
    have h : (dimReceiver hc a level s).outcome = .next t := h
    unfold dimReceiver at h
    split at h
    · exact Host.Outcome.next.inj h ▸ .uninitialised _ (by simp) ‹_›
    · split at h
      · exact execEnds_of_send (by simp) h
      · exact Host.Outcome.next.inj h ▸ .ignored hc a level
  | clear => exact Host.Outcome.next.inj h ▸ .cleared
  | push0 => exact Host.Outcome.next.inj h ▸ .pushed _ (by simp) _ (by decide)
  | push1 => exact Host.Outcome.next.inj h ▸ .pushed _ (by simp) _ (by decide)
  | pushEnd => exact Host.Outcome.next.inj h ▸ .pushed _ (by simp) _ (by decide)
  | writeByte v => exact Host.Outcome.next.inj h ▸ .wrote v
  | assemble hc a c => exact Host.Outcome.next.inj h ▸ .assembled hc a c
  | transmit =>
    have h : (transmitBuffer s).outcome = .next t := h
    rcases transmitBuffer_ends s with ⟨he, -, hp⟩ | ⟨es, k, hes, hk, he | ⟨he, hr⟩⟩
    all_goals rw [he] at h
    · exact Host.Outcome.next.inj h ▸ .uninitialised _ (by simp) hp
    · exact Host.Outcome.next.inj h ▸ .walked es k hes hk
    · exact Host.Outcome.next.inj h ▸ .metReserved es k hes hk hr

end Sys2Proof.Machine
end

