-- ==== Sys2Proof/Laws/PerInstr.lean ====
section
/-! SUPPORT. A fact about every instruction as syntax, one lemma per constructor: its word carries its opcode (R72), has
the reserved field at 0 (R70) and 0 in every field it does not use (R76). -/

namespace Sys2Proof.Laws

/-- The opcode of each command (R72). -/
def opcodeOf : Instr → BitVec 4
  | .init _ => 0x1
  | .send _ _ _ => 0x2
  | .switch _ _ _ => 0x3
  | .toggle _ _ => 0x4
  | .dim _ _ _ => 0x5
  | .clear => 0x8
  | .push0 => 0x9
  | .push1 => 0x9
  | .pushEnd => 0x9
  | .writeByte _ => 0xA
  | .assemble _ _ _ => 0xB
  | .transmit => 0xC

/-- The word's opcode, its reserved field and its unused fields are what the spec's encoding says. -/
def EncodedFields.Statement (i : Instr) : Prop :=
  opField (encode i) = opcodeOf i ∧ zField (encode i) = 0#3 ∧
    unusedFieldsZero (opField (encode i)) (hcField (encode i)) (adField (encode i)) (bField (encode i))
      (fField (encode i)) = true

/-- The word of given fields has them. -/
theorem encodedFields_of_cmdWord {i : Instr} {op : BitVec 4} {hc : HomeCode} {a b : Byte} {f : Bool}
    (he : encode i = cmdWord op hc a b f) (ho : opcodeOf i = op) (hu : unusedFieldsZero op hc a b f = true) :
    EncodedFields.Statement i := by
  simp [EncodedFields.Statement, he, ho, hu]

theorem EncodedFields.init (pin : Pin) : EncodedFields.Statement (.init pin) :=
  encodedFields_of_cmdWord rfl rfl rfl

theorem EncodedFields.send (hc : HomeCode) (a c : Byte) : EncodedFields.Statement (.send hc a c) :=
  encodedFields_of_cmdWord rfl rfl rfl

theorem EncodedFields.switch (hc : HomeCode) (a : Byte) (on : Bool) : EncodedFields.Statement (.switch hc a on) :=
  encodedFields_of_cmdWord rfl rfl rfl

theorem EncodedFields.toggle (hc : HomeCode) (a : Byte) : EncodedFields.Statement (.toggle hc a) :=
  encodedFields_of_cmdWord rfl rfl rfl

theorem EncodedFields.dim (hc : HomeCode) (a level : Byte) : EncodedFields.Statement (.dim hc a level) :=
  encodedFields_of_cmdWord rfl rfl rfl

theorem EncodedFields.clear : EncodedFields.Statement .clear := encodedFields_of_cmdWord rfl rfl rfl

theorem EncodedFields.push0 : EncodedFields.Statement .push0 := encodedFields_of_cmdWord rfl rfl rfl

theorem EncodedFields.push1 : EncodedFields.Statement .push1 := encodedFields_of_cmdWord rfl rfl rfl

theorem EncodedFields.pushEnd : EncodedFields.Statement .pushEnd := encodedFields_of_cmdWord rfl rfl rfl

theorem EncodedFields.writeByte (v : Byte) : EncodedFields.Statement (.writeByte v) :=
  encodedFields_of_cmdWord rfl rfl rfl

theorem EncodedFields.assemble (hc : HomeCode) (a c : Byte) : EncodedFields.Statement (.assemble hc a c) :=
  encodedFields_of_cmdWord rfl rfl rfl

theorem EncodedFields.transmit : EncodedFields.Statement .transmit := encodedFields_of_cmdWord rfl rfl rfl

end Sys2Proof.Laws
end

