-- ==== Sys2Proof/Laws/Port.lean ====
section
/-! SUPPORT. What a step can do, said once (spec/60_exceptions.md R181, R182; spec/70_reset_and_hazards.md R202, R210). -/

namespace Sys2Proof.Machine

/-- A completed command's next state is the command's own with `MODE` at `IDLE`. -/
theorem complete_next {r : Host.Outcome State Fault Refusal} {t : State} :
    complete r = .next t ↔ ∃ u, r = .next u ∧ t = setMode .idle u := by
  cases r <;> simp [complete, eq_comm]

/-- Everything a step that answers a next state can have done: the block was unfaulted and idle, and it waited, or took
an illegal word, or ran a legal one. -/
theorem step_cases {s t : State} (h : step s = .next t) :
    s.fault = .noFault ∧ s.mode = .idle ∧
      ((s.port = [] ∧ t = s) ∨
        ∃ w rest, s.port = w :: rest ∧
          ((∃ e, decode w = .error e ∧ t = setMode .idle (setFault .illegalCommand (accept rest s))) ∨
            ∃ i u, decode w = .ok i ∧ exec i (accept rest s) = .next u ∧ t = setMode .idle u)) := by
  simp only [step, portCycle] at h
  split at h
  · cases h
  · rename_i hf
    refine ⟨by simpa using hf, ?_⟩
    split at h
    · cases h
    · rename_i hm
      refine ⟨hm, ?_⟩
      split at h
      · rename_i hp
        cases h
        exact .inl ⟨hp, rfl⟩
      · rename_i w rest hp
        refine .inr ⟨w, rest, hp, ?_⟩
        obtain ⟨u, hu, rfl⟩ := complete_next.mp h
        unfold runWord at hu
        split at hu
        · rename_i i hd
          exact .inr ⟨i, u, hd, hu, rfl⟩
        · rename_i e hd
          cases hu
          exact .inl ⟨e, hd, rfl⟩

/-- A step from an unfaulted idle block with a word next. -/
theorem step_word {s : State} {w : CmdWord} {rest : List CmdWord} (hf : s.fault = .noFault) (hm : s.mode = .idle)
    (hp : s.port = w :: rest) : step s = complete (runWord w (accept rest s)) := by
  simp [step, portCycle, hf, hm, hp]

end Sys2Proof.Machine
end

