-- ==== Sys2Proof/Tests/Slice0.lean ====
section
/-! SUPPORT. Tests of the model on the spec's own vectors (spec/95_test_vectors.md, ids in the comments) and by hand from
the rules, each about one step; and for each statement with hypotheses a state and operands that meet them all. -/

namespace Sys2Proof.Machine

-- One test after the other: side by side they ask for more threads than the memory limit leaves.
set_option Elab.async false

/-! ## Helpers -/

/-- The next state of an outcome, if it is one. -/
def nextOf : Host.Outcome State Fault Refusal → Option State
  | .next s => some s
  | .fault _ => none
  | .refused _ => none

/-- The reason of a fault outcome, if it is one. -/
def faultOf : Host.Outcome State Fault Refusal → Option Fault
  | .next _ => none
  | .fault r => some r
  | .refused _ => none

/-- The block after INIT of a pin, with nothing emitted yet. -/
def ready (p : Pin) : State := { State.reset with pin := some p, pinValid := true }

/-- A block after INIT with a buffer, given by its slots that are not `SYM_ZERO`, and an index. -/
def loaded (p : Pin) (m : Memory) (i : SlotIx) : State := { ready p with buf := m, idx := i }

/-- A block with words to present. -/
def presenting (s : State) (ws : List CmdWord) : State := { s with port := ws }

/-- A decoded word as an option, so that it can be compared. -/
def decoded (w : CmdWord) : Option Instr :=
  match decode w with
  | .ok i => some i
  | .error _ => none

/-- Why a word is refused. -/
def refusedAs (w : CmdWord) : Option Illegal :=
  match decode w with
  | .ok _ => none
  | .error e => some e

/-! ## Decoding: one word per constructor, written from R70's fields -/

/-- O1: `INIT 5`. -/
theorem test_decode_init : decoded 0x1000000050 = some (.init 5) := by decide
/-- R152. -/
theorem test_decode_send : decoded 0x2634201110 = some (.send 0x6342 0x01 0x11) := by decide
/-- R155. -/
theorem test_decode_switch_on : decoded 0x3634201001 = some (.switch 0x6342 0x01 true) := by decide
/-- O3. -/
theorem test_decode_switch_off : decoded 0x3000000000 = some (.switch 0 0 false) := by decide
/-- R156. -/
theorem test_decode_toggle : decoded 0x4634201000 = some (.toggle 0x6342 0x01) := by decide
/-- R157. -/
theorem test_decode_dim : decoded 0x5634201080 = some (.dim 0x6342 0x01 0x08) := by decide
/-- R90. -/
theorem test_decode_clear : decoded 0x8000000000 = some .clear := by decide
/-- R92. -/
theorem test_decode_push0 : decoded 0x9000000000 = some .push0 := by decide
/-- R93. -/
theorem test_decode_push1 : decoded 0x9000000010 = some .push1 := by decide
/-- R94. -/
theorem test_decode_pushEnd : decoded 0x9000000020 = some .pushEnd := by decide
/-- R114. -/
theorem test_decode_writeByte : decoded 0xA000000630 = some (.writeByte 0x63) := by decide
/-- R115. -/
theorem test_decode_assemble : decoded 0xB634201110 = some (.assemble 0x6342 0x01 0x11) := by decide
/-- R133. -/
theorem test_decode_transmit : decoded 0xC000000000 = some .transmit := by decide
/-- R76: the example of an encoding. -/
theorem test_encode_send : encode (.send 0x6342 0x01 0x11) = 0x2634201110 := by decide
/-- The host's numbering of a row's bits is the word's own. -/
theorem test_table_word : decodeTableWord 40 0x9000000020 = some .pushEnd := by decide

/-- X1, X2, X3: reserved opcodes. -/
theorem test_refuse_opcodes :
    refusedAs 0x0000000000 = some .reservedOpcode ∧ refusedAs 0x6000000000 = some .reservedOpcode ∧
    refusedAs 0x7000000000 = some .reservedOpcode ∧ refusedAs 0xF000000000 = some .reservedOpcode := by decide
/-- X4. -/
theorem test_refuse_reserved_field : refusedAs 0x8000000002 = some .reservedFieldSet := by decide
/-- X5, X7, X8, X9, X10. -/
theorem test_refuse_unused_fields :
    refusedAs 0x8000000010 = some .unusedFieldSet ∧ refusedAs 0x3634201100 = some .unusedFieldSet ∧
    refusedAs 0x4634201001 = some .unusedFieldSet ∧ refusedAs 0x1000000051 = some .unusedFieldSet ∧
    refusedAs 0xC000001000 = some .unusedFieldSet := by decide
/-- X6. -/
theorem test_refuse_symbol_code : refusedAs 0x9000000030 = some .unknownSymbolCode := by decide

/-! ## The assembler: an ill-formed line for each check (R76), and lines it takes -/

theorem test_illFormed_missing : (SourceLine.mk .send [0x6342, 0x01]).wellFormed = false := by decide
theorem test_illFormed_superfluous : (SourceLine.mk .clear [0]).wellFormed = false := by decide
theorem test_illFormed_homeCode : (SourceLine.mk .send [0x10000, 0x01, 0x11]).wellFormed = false := by decide
theorem test_illFormed_byte : (SourceLine.mk .writeByte [0x100]).wellFormed = false := by decide
theorem test_illFormed_address : (SourceLine.mk .toggle [0, 0x100]).wellFormed = false := by decide
theorem test_illFormed_on : (SourceLine.mk .switch [0x6342, 0x01, 2]).wellFormed = false := by decide
theorem test_refused_line : assembleLine ⟨.switch, [0x6342, 0x01, 2]⟩ = none := by decide
theorem test_taken_line : assembleLine ⟨.switch, [0xFFFF, 0xFF, 1]⟩ = some (.switch 0xFFFF 0xFF true) := by decide
/-- A line's text: `DIM 16, 0x0a, 0x11`. -/
theorem test_parse_dim :
    parseLine ['D', 'I', 'M', ' ', ' ', '1', '6', ',', ' ', '0', 'x', '0', 'a', ',', '0', 'x', '1', '1'] =
      some ⟨.dim, [16, 10, 17]⟩ := by decide
theorem test_parse_pushEnd : parseLine ['P', 'U', 'S', 'H', '.', 'E', 'N', 'D'] = some ⟨.pushEnd, []⟩ := by decide
theorem test_parse_no_number : parseLine ['I', 'N', 'I', 'T', ' ', 'x'] = none := by decide

/-! ## Check values -/

/-- P1 to P6, P11 to P14. -/
theorem test_parity :
    parity 0x00 = false ∧ parity 0x01 = true ∧ parity 0x03 = false ∧ parity 0x7F = true ∧ parity 0x80 = true ∧
    parity 0xFF = false ∧ parity 0x63 = false ∧ parity 0x42 = false ∧ parity 0x11 = false ∧ parity 0xBD = false := by
  decide
/-- K1 to K8. -/
theorem test_checksum :
    checksum 0x0000 0x00 0x00 = 0x06 ∧ checksum 0xFFFF 0xFF 0xFF = 0x02 ∧ checksum 0x6342 0x01 0x11 = 0xBD ∧
    checksum 0x00FA 0x00 0x00 = 0x00 ∧ checksum 0x0100 0x00 0xF8 = 0xFF ∧ checksum 0xFFFA 0x00 0x00 = 0xFF ∧
    checksum 0x0080 0x80 0x00 = 0x06 ∧ checksum 0x1234 0x56 0x10 = 0xB2 := by decide
/-- The four fault codes of R180. -/
theorem test_fault_codes : faultCodeBits .noFault = 0 ∧ faultCodeBits .illegalCommand = 1 ∧
    faultCodeBits .notInitialised = 2 ∧ faultCodeBits .reservedSymbol = 3 := by decide

/-! ## The buffer -/

/-- B2: PUSH.0 from reset makes the buffer non-empty although no slot changed. -/
theorem test_push0 : (nextOf (exec .push0 State.reset)).map (fun t => (t.idx, t.buf)) = some (1, []) := by decide
/-- B5: slot 95 is the last. -/
theorem test_push1_last : (nextOf (exec .push1 (loaded 5 [] 95))).map (fun t => (t.idx, t.buf)) =
    some (96, [(95, symOne)]) := by decide
/-- B6: a push on a full buffer is dropped. -/
theorem test_push0_full : nextOf (exec .push0 (loaded 5 [(95, symOne)] 96)) = some (loaded 5 [(95, symOne)] 96) := by
  decide
/-- B4: the last of its pushes. -/
theorem test_push1_after_end : (nextOf (exec .push1 (loaded 5 [(0, symOne), (1, symEnd)] 2))).map (·.buf) =
    some [(0, symOne), (1, symEnd), (2, symOne)] := by decide
theorem test_pushEnd : (nextOf (exec .pushEnd (loaded 5 [(0, symOne)] 1))).map (fun t => (t.idx, t.buf.read 1)) =
    some (2, symEnd) := by decide
/-- R90's example. -/
theorem test_clear : (nextOf (exec .clear (loaded 5 [(12, symOne)] 60))).map (fun t => (t.idx, t.buf)) =
    some (0, []) := by decide

/-! ## The encoder -/

/-- W1. -/
theorem test_writeByte_01 : (nextOf (exec (.writeByte 0x01) State.reset)).map (fun t => (t.idx, t.buf)) =
    some (9, [(7, symOne), (8, symOne)]) := by decide
/-- W4: bits 1, 0 and the parity are dropped. -/
theorem test_writeByte_drops : (nextOf (exec (.writeByte 0xFF) (loaded 5 [] 90))).map (fun t => (t.idx, t.buf)) =
    some (96, [(90, symOne), (91, symOne), (92, symOne), (93, symOne), (94, symOne), (95, symOne)]) := by decide
/-- V1's frame (E1), from the slot map. -/
theorem test_frame_v1 : (frame 0x6342 0x01 0x11).map Bool.toNat =
    [0, 0, 0, 0, 0, 0, 0, 0, 0, 0, 0, 0, 1, 0, 1, 1, 0, 0, 0, 1, 1, 0, 0, 1, 0, 0, 0, 0, 1, 0, 0, 0, 0, 0, 0, 0, 0, 0,
      1, 1, 0, 0, 0, 1, 0, 0, 0, 1, 0, 1, 0, 1, 1, 1, 1, 0, 1, 0, 0] := by decide +kernel
/-- V3: ASSEMBLE of zeros, over a full buffer; its ones are the start marker and those of the checksum 0x06. -/
theorem test_assemble_v3 :
    (nextOf (exec (.assemble 0 0 0) (loaded 5 [(3, symOne), (95, symEnd)] 96))).map (fun t => (t.idx, t.buf)) =
      some (60, [(12, symOne), (54, symOne), (55, symOne), (59, symEnd)]) := by decide +kernel
/-- R115: the latches. -/
theorem test_assemble_latches :
    (nextOf (exec (.assemble 0x6342 0x01 0x11) State.reset)).map (fun t => (t.hcHi, t.hcLo, t.addr, t.cmd, t.csum)) =
      some (0x63, 0x42, 0x01, 0x11, 0xBD) := by decide +kernel

/-! ## The transmitter -/

/-- T1: an empty buffer before INIT. -/
theorem test_transmit_empty : nextOf (exec .transmit State.reset) = some State.reset := by decide
/-- T3. -/
theorem test_transmit_stops_at_end :
    (nextOf (exec .transmit (loaded 3 [(0, symOne), (1, symEnd), (2, symOne)] 3))).map (fun t => (t.trace, t.txPtr)) =
      some ([.writeLevel 3 .high, .sleep 600, .writeLevel 3 .low, .sleep 600], 1) := by decide

/-- T9: the pulse of slot 0, then the fault; the pulse stays in the trace. -/
theorem test_transmit_reserved :
    (nextOf (exec .transmit (loaded 5 [(1, symReserved)] 2))).map (fun t => (t.trace, t.fault)) =
      some ([.writeLevel 5 .high, .sleep 400, .writeLevel 5 .low, .sleep 400], .reservedSymbol) := by decide
/-- T6: an END-MARKER in slot 0 sends nothing. -/
theorem test_transmit_end_first : (nextOf (exec .transmit (loaded 2 [(0, symEnd)] 1))).map (fun t => (t.trace, t.fault)) =
    some ([], .noFault) := by decide
/-- T7. -/
theorem test_transmit_uninitialised :
    nextOf (exec .transmit { State.reset with buf := [(0, symEnd)], idx := 1 }) =
      some { State.reset with buf := [(0, symEnd)], idx := 1, fault := .notInitialised } := by decide
/-- T4: no END-MARKER: all 96 slots, 384 events, 76800 microseconds. -/
theorem test_transmit_whole_capacity :
    (nextOf (exec .transmit (loaded 5 [] 1))).map (fun t => (t.trace.length, sleepTime t.trace, t.txPtr)) =
      some (384, 76800, 96) := by decide +kernel

/-! ## The public commands -/

/-- V2: 710 events and 178000 microseconds. -/
theorem test_send_v2 :
    (nextOf (exec (.send 0x6342 0x01 0x11) (ready 5))).map (fun t => (t.trace.length, sleepTime t.trace, t.idx)) =
      some (710, 178000, 60) := by
  rw [exec_send, sendTelegram_eq (p := 5) rfl rfl]; decide +kernel
/-- O3: 161200 microseconds. -/
theorem test_switch_off :
    (nextOf (exec (.switch 0 0 false) (ready 9))).map (fun t => (t.trace.length, sleepTime t.trace, t.csum)) =
      some (710, 161200, 0x06) := by
  rw [exec_switch, sendTelegram_eq (p := 9) rfl rfl]; decide +kernel
/-- O4 and R156: checksum 0xBE. -/
theorem test_toggle :
    (nextOf (exec (.toggle 0x6342 0x01) (ready 5))).map (fun t => (sleepTime t.trace, t.cmd, t.csum)) =
      some (178000, 0x12, 0xBE) := by
  rw [exec_toggle, sendTelegram_eq (p := 5) rfl rfl]; decide +kernel
/-- O5: level 0x10 is forwarded as a toggle, without its level. -/
theorem test_dim_forwards :
    exec (.dim 0x6342 0x01 0x10) (ready 7) = exec (.toggle 0x6342 0x01) (ready 7) := by rfl

/-- O1 and O8. -/
theorem test_init : (nextOf (exec (.init 6) (ready 5))).map (fun t => (t.pin, t.pinValid, t.trace, t.responses)) =
    some (some 6, true, [.setDirOut 6], [true]) := by decide
/-- O9. -/
theorem test_send_uninitialised : nextOf (exec (.send 0x6342 0x01 0x11) State.reset) =
    some { State.reset with fault := .notInitialised } := by decide
/-- O10: checked before the level. -/
theorem test_dim_uninitialised : nextOf (exec (.dim 0x6342 0x01 0x11) State.reset) =
    some { State.reset with fault := .notInitialised } := by decide
/-- O6. -/
theorem test_dim_ignored : nextOf (exec (.dim 0x6342 0x01 0x11) (ready 7)) = some (ready 7) := by decide

/-! ## The port -/

/-- X12: a halted block takes nothing. -/
theorem test_halted : faultOf (step (presenting { State.reset with fault := .illegalCommand } [0x1000000050])) =
    some (.halted .illegalCommand) := by decide
/-- X1. -/
theorem test_illegal_word : nextOf (step (presenting State.reset [0x0000000000])) =
    some { State.reset with fault := .illegalCommand } := by decide
/-- Program E: a step leaves the words behind the one it took, and the block idle. -/
theorem test_step_takes_one : (nextOf (step (presenting (ready 7) [0x8000000000, 0x0000000000]))).map
    (fun t => (t.port, t.mode)) = some ([0x0000000000], .idle) := by decide
/-- The placed word is the one the next step runs. -/
theorem test_withFetchWord : (nextOf (step (State.reset.withFetchWord 40 0x1000000050))).map (·.pin) =
    some (some 5) := by decide

/-! ## Witnesses: states and operands that meet a statement's hypotheses, each clause at its boundary -/

/-- LegalWordIsTheEncodingOfItsInstruction. -/
theorem test_witness_legal_word : decode 0x1000000050 = .ok (.init 5) := by rfl
/-- ClearEmptiesTheBuffer and ReservedEncodingsAreRefused: an illegal word of CLEAR's opcode. -/
theorem test_witness_clear_word : (0x8000000001 : CmdWord).extractLsb 39 36 = 0x8 ∧
    (0x8000000001 : CmdWord) ≠ 0x8000000000 ∧ decode 0x8000000001 = .error .unusedFieldSet :=
  ⟨by decide, by decide, rfl⟩
/-- StepRunsTheDecodedCommand. -/
theorem test_witness_step_runs : (presenting State.reset [0x8000000000]).fault = .noFault ∧
    (presenting State.reset [0x8000000000]).mode = .idle ∧
    (presenting State.reset [0x8000000000]).port = 0x8000000000 :: [] ∧ decode 0x8000000000 = .ok .clear :=
  ⟨rfl, rfl, rfl, rfl⟩
/-- IllegalWordWritesOnlyFault. -/
theorem test_witness_illegal_word : (presenting State.reset [0]).fault = .noFault ∧
    (presenting State.reset [0]).mode = .idle ∧ (presenting State.reset [0]).port = 0 :: [] ∧
    decode 0 = .error .reservedOpcode :=
  ⟨rfl, rfl, rfl, rfl⟩
/-- RaisedFaultHaltsTheBlock: a halted block, and a command that answers a next state there. -/
theorem test_witness_halted : ({ ready 5 with fault := .notInitialised }).fault ≠ .noFault ∧
    nextOf (exec .clear { ready 5 with fault := .notInitialised }) = some { ready 5 with fault := .notInitialised } := by
  decide
/-- BusyPortHasNoMove. -/
theorem test_witness_busy : ({ ready 5 with mode := .busy }).fault = .noFault ∧
    ({ ready 5 with mode := .busy }).mode = .busy := ⟨rfl, rfl⟩
/-- IdleBlockWaitsForAWord. -/
theorem test_witness_waits : (ready 5).fault = .noFault ∧ (ready 5).mode = .idle ∧ (ready 5).port = [] :=
  ⟨rfl, rfl, rfl⟩
/-- A block with a word to present meets the invariant and is not faulted: UnfaultedSoundBlockAlwaysMoves. -/
theorem test_witness_inv : (presenting (ready 5) [0x9000000010]).Inv ∧
    (presenting (ready 5) [0x9000000010]).fault = .noFault :=
  ⟨⟨by decide, by decide, fun _ => (by decide : symZero ≠ symReserved), fun _ _ => rfl, rfl, by decide, by decide, rfl,
    by decide⟩, rfl⟩
/-- StepKeepsTheInvariant, StepKeepsTheBufferCanonical, StepKeepsPulsesWhole, StepOnlyExtendsTheTrace and the last clause
of OnlyInitResponds: that block has a step, a canonical buffer and a trace of whole pulses. -/
theorem test_witness_step : (presenting (ready 5) [0x9000000010]).buf.wf ∧
    pulsesPaired (presenting (ready 5) [0x9000000010]).trace = true ∧
    (presenting (ready 5) [0x9000000010]).mode = .idle ∧ (loaded 5 [(0, symOne)] 1).fault = .noFault ∧
    nextOf (step (presenting (ready 5) [0x9000000010])) = some (loaded 5 [(0, symOne)] 1) := by decide
/-- PushAppendsOrDropsSilently: a canonical buffer with the last slot free, and a full one. -/
theorem test_witness_push : (loaded 5 [(3, symOne)] 95).buf.wf ∧ (loaded 5 [(3, symOne)] 95).idx.toNat < 96 ∧
    (loaded 5 [(95, symOne)] 96).buf.wf ∧ 96 ≤ (loaded 5 [(95, symOne)] 96).idx.toNat := by decide
/-- WriteBytePushesNineSymbols: the last index at which all nine symbols have room, one at which the parity has none, and
a full buffer. -/
theorem test_witness_writeByte :
    ((loaded 5 [] 87).buf.wf ∧ (loaded 5 [] 87).idx.toNat ≤ 96 ∧ (loaded 5 [] 87).idx.toNat + 8 < 96) ∧
    ((loaded 5 [] 88).idx.toNat ≤ 96 ∧ (loaded 5 [] 88).idx.toNat + 7 < 96 ∧ ¬ (loaded 5 [] 88).idx.toNat + 8 < 96) ∧
    (loaded 5 [] 96).idx.toNat ≤ 96 := by decide
/-- AssembledTelegramProperties and AssembleForgetsTheOldBuffer: two states from which ASSEMBLE answers a next state. -/
theorem test_witness_assemble : (nextOf (exec (.assemble 0 0 0) State.reset)).isSome = true ∧
    (nextOf (exec (.assemble 0 0 0) (loaded 5 [(95, symOne)] 96))).isSome = true := ⟨rfl, rfl⟩
/-- TransmitOnAnEmptyBufferDoesNothing. -/
theorem test_witness_empty : State.reset.idx = 0 := rfl
/-- TransmitSendsUpToTheFirstEnd: a buffer that ends at an END-MARKER, and one with no END-MARKER. -/
theorem test_witness_transmit :
    ((loaded 3 [(0, symOne), (1, symEnd)] 2).idx ≠ 0 ∧ (loaded 3 [(0, symOne), (1, symEnd)] 2).pinValid = true ∧
      (loaded 3 [(0, symOne), (1, symEnd)] 2).pin = some 3 ∧
      stopSymbol (loaded 3 [(0, symOne), (1, symEnd)] 2) = some symEnd) ∧
    ((loaded 3 [] 1).idx ≠ 0 ∧ stopSymbol (loaded 3 [] 1) = none) := by decide +kernel
/-- TransmitRaisesOnTheReservedSymbol. -/
theorem test_witness_reserved : (loaded 5 [(1, symReserved)] 2).idx ≠ 0 ∧ (loaded 5 [(1, symReserved)] 2).pinValid = true ∧
    (loaded 5 [(1, symReserved)] 2).pin = some 5 ∧
    stopSymbol (loaded 5 [(1, symReserved)] 2) = some symReserved := by decide +kernel
/-- RepeatedTransmitSendsTheSameWaveform: two TRANSMITs in a row, neither of which faults. -/
theorem test_witness_repeat :
    (nextOf (exec .transmit (loaded 2 [(0, symEnd)] 1))) = some (loaded 2 [(0, symEnd)] 1) ∧
    (loaded 2 [(0, symEnd)] 1).fault = .noFault := by decide
/-- A block with a pin and no fault: AssembledTelegramWaveform, SendTransmitsThreeTelegrams, SwitchSendsItsCommandByte,
ToggleSendsItsCommandByte, SendEqualsAssembleTransmitSequence, AssembleEqualsItsCommandSequence,
WriteByteEqualsItsPushes and SendSleepTimeBounds. -/
theorem test_witness_ready : (ready 5).pinValid = true ∧ (ready 5).pin = some 5 ∧ (ready 5).fault = .noFault :=
  ⟨rfl, rfl, rfl⟩
/-- SendLeavesTheLineLow: SEND answers a next state there, and another pin exists. -/
theorem test_witness_send : (nextOf (exec (.send 0 0 0) (ready 5))).isSome = true ∧ (6 : Pin) ≠ 5 := by
  rw [exec_send, sendTelegram_eq (p := 5) rfl rfl]; decide +kernel
/-- DimForwardsAToggleUpToItsBound and the last clause of PublicCommandsEqualSends: the two levels at the bound. -/
theorem test_witness_dim : (ready 7).pinValid = true ∧ (ready 7).pin = some 7 ∧ (0x10 : Byte).toNat ≤ 0x10 ∧
    0x10 < (0x11 : Byte).toNat := by decide
/-- LineCommandsBeforeInitRaise: an unset pin with an empty and with a non-empty buffer. -/
theorem test_witness_before_init : State.reset.pinValid = false ∧ ({ State.reset with idx := 1 }).pinValid = false ∧
    ({ State.reset with idx := 1 }).idx ≠ 0 := by decide
/-- OnlyInitWritesThePin and the second clause of OnlyInitResponds: a command that is not INIT and completes. -/
theorem test_witness_not_init : (∀ p, Instr.clear ≠ .init p) ∧ nextOf (exec .clear (ready 5)) = some (ready 5) :=
  ⟨by simp, rfl⟩
/-- ReservedSymbolIsUnreachable: a state that meets the invariant, and a command that completes there. -/
theorem test_witness_inv_exec : (ready 5).Inv ∧ nextOf (exec .transmit (ready 5)) = some (ready 5) :=
  ⟨⟨by decide, by decide, fun _ => (by decide : symZero ≠ symReserved), fun _ _ => rfl, rfl, by decide, by decide, rfl,
    by decide⟩, by decide⟩
/-- NotInitialisedHasNoOtherEffect: a command that raises the fault. -/
theorem test_witness_raises : State.reset.fault = .noFault ∧
    nextOf (exec (.toggle 0 0) State.reset) = some { State.reset with fault := .notInitialised } := by decide
/-- SendsForgetEarlierCommands: two states that agree on the pin and differ in the buffer; the command completes in
both. -/
theorem test_witness_forget : (ready 5).pin = (loaded 5 [(0, symOne)] 1).pin ∧
    (ready 5).pinValid = (loaded 5 [(0, symOne)] 1).pinValid ∧ (ready 5).fault = (loaded 5 [(0, symOne)] 1).fault ∧
    (nextOf (exec (.send 0 0 0) (ready 5))).isSome = true ∧
    (nextOf (exec (.send 0 0 0) (loaded 5 [(0, symOne)] 1))).isSome = true := by
  rw [exec_send, exec_send, sendTelegram_eq (p := 5) rfl rfl, sendTelegram_eq (p := 5) rfl rfl]; decide +kernel
/-- ReadOfAPinWithoutAValueRaises: such a block, with a non-empty buffer. -/
theorem test_witness_no_pin : ({ ready 5 with pin := none, idx := 1 }).pinValid = true ∧
    ({ ready 5 with pin := none, idx := 1 }).pin = none ∧ ({ ready 5 with pin := none, idx := 1 }).idx ≠ 0 := by decide
/-- I12: a read of `PIN` without a value is a fault, and `NOT_INITIALISED` guards it. -/
theorem test_no_pin : (nextOf (exec .transmit { ready 5 with pin := none, idx := 1 })).map (fun t => (t.fault, t.trace)) =
    some (.notInitialised, []) := by decide

end Sys2Proof.Machine
end

/-! ## The scope's statements (spec/00_scope.md): what a raised fault leaves -/

namespace Sys2Proof.Machine

/-- Where a command leaves `FAULT`: as it was, or `NOT_INITIALISED` as the only change to the state, or
`RESERVED_SYMBOL`. -/
theorem ExecEnds.fault_cases {i : Instr} {s t : State} (h : ExecEnds s i t) :
    t.fault = s.fault ∨ t = setFault .notInitialised s ∨ t.fault = .reservedSymbol := by
  cases h with
  | uninitialised => exact .inr (.inl rfl)
  | metReserved => exact .inr (.inr rfl)
  | selected => exact .inl rfl
  | cleared => exact .inl rfl
  | pushed _ _ v => exact .inl (push_fault v s)
  | wrote v => exact .inl (writeByte_fault v s)
  | assembled hc a c => exact .inl (assembleTelegram_fault hc a c s)
  | walked => exact .inl rfl
  | sent _ _ hc a c p => exact .inl (afterSend_fault hc a c p s)
  | ignored => exact .inl rfl

/-- Settles O46: the check of `PIN_VALID` comes before every effect of a command (R183), so of the three ways a command
can leave `FAULT`, only the write of `FAULT` alone gives `NOT_INITIALISED`. -/
theorem notInitialisedHasNoOtherEffect : Obligations.NotInitialisedHasNoOtherEffect := by
  intro i s t hs hexec hraised
  rcases (exec_ends hexec).fault_cases with hkept | honly | hreserved
  · rw [hkept, hs] at hraised
    cases hraised
  · exact honly
  · rw [hreserved] at hraised
    cases hraised

end Sys2Proof.Machine

/-! ## The state's statements (spec/10_state.md): the line a send leaves -/

namespace Sys2Proof.Machine

theorem lineAfter_append (q : Pin) (l : Line) (es fs : List Event) :
    lineAfter q l (es ++ fs) = lineAfter q (lineAfter q l es) fs := by
  induction es generalizing l with
  | nil => rfl
  | cons e es ih => exact ih _

/-- A `Sleep` touches no line (R31). -/
theorem lineAfter_sleep (q : Pin) (l : Line) (us : Nat) : lineAfter q l [.sleep us] = l := rfl

/-- A line moves on by the events appended to the trace. -/
theorem line_of_trace_append {s t : State} {es : List Event} (h : t.trace = s.trace ++ es) (q : Pin) :
    t.line q = lineAfter q (s.line q) es := by
  rw [State.line, h, lineAfter_append]
  rfl

/-- The last level written stands (R31): of two writes to one pin, the first leaves no mark on any line. -/
theorem lineAfterEvent_writeLevel_twice (p q : Pin) (l : Line) (u v : Level) :
    lineAfterEvent q (lineAfterEvent q l (.writeLevel p u)) (.writeLevel p v) =
      lineAfterEvent q l (.writeLevel p v) := by
  by_cases h : p = q <;> simp [lineAfterEvent, h]

/-- A pulse does to every line what its `WriteLevel(LOW)` does (R130). -/
theorem lineAfter_symbolEvents {v : Symbol} (hv : isData v = true) (p q : Pin) (l : Line) :
    lineAfter q l (symbolEvents p v) = lineAfterEvent q l (.writeLevel p .low) := by
  have hdata : v = symZero ∨ v = symOne := by simpa [isData] using hv
  rcases hdata with rfl | rfl
  all_goals exact lineAfterEvent_writeLevel_twice p q l .high .low

/-- So do one or more pulses in a row. -/
theorem lineAfter_pulses {vs : List Symbol} (hd : ∀ v ∈ vs, isData v = true) (hne : vs ≠ []) (p q : Pin) (l : Line) :
    lineAfter q l (vs.flatMap (symbolEvents p)) = lineAfterEvent q l (.writeLevel p .low) := by
  induction vs generalizing l with
  | nil => exact absurd rfl hne
  | cons v vs ih =>
    rw [List.flatMap_cons, lineAfter_append, lineAfter_symbolEvents (hd v (List.mem_cons_self ..))]
    by_cases hvs : vs = []
    · subst hvs
      rfl
    · rw [ih (fun x hx => hd x (List.mem_cons_of_mem v hx)) hvs, lineAfterEvent_writeLevel_twice]

/-- A send does to every line what one `WriteLevel(LOW)` on its pin does. -/
theorem afterSend_line (hc : HomeCode) (a c : Byte) (p q : Pin) (s : State) :
    (afterSend hc a c p s).line q = lineAfterEvent q (s.line q) (.writeLevel p .low) := by
  have hne : frameSymbols hc a c ≠ [] := List.ne_nil_of_length_pos (by simp)
  rw [line_of_trace_append (afterSend_trace hc a c p s)]
  simp only [lineAfter_append, lineAfter_pulses isData_of_frame hne, lineAfter_sleep, lineAfterEvent_writeLevel_twice]

/-- Settles O48: the send ends in `afterSend`, whose effect on a line is that of one `WriteLevel(LOW)` on `p`. -/
theorem sendLeavesTheLineLow : Obligations.SendLeavesTheLineLow := by
  intro s t p hc a c hv hp hexec
  rw [exec_send, sendTelegram_eq hv hp] at hexec
  obtain rfl := Host.Outcome.next.inj hexec
  refine ⟨?_, fun q hq => ?_⟩
  · rw [afterSend_line, lineAfterEvent, if_pos rfl]
  · rw [afterSend_line, lineAfterEvent, if_neg hq.symm]

end Sys2Proof.Machine

/-! ## Who writes the pin, and a read of it without a value -/

namespace Sys2Proof.Machine

/-- Every end of a command but INIT's leaves the pin register and its valid bit alone. -/
theorem ExecEnds.pin_kept {i : Instr} {s t : State} (h : ExecEnds s i t) (hi : ∀ p, i ≠ .init p) :
    t.pin = s.pin ∧ t.pinValid = s.pinValid := by
  cases h with
  | selected p => exact absurd rfl (hi p)
  | uninitialised => exact ⟨rfl, rfl⟩
  | cleared => exact ⟨rfl, rfl⟩
  | pushed _ _ v => exact ⟨push_pin v s, push_pinValid v s⟩
  | wrote v => exact ⟨writeByte_pin v s, writeByte_pinValid v s⟩
  | assembled hc a c => exact ⟨assembleTelegram_pin hc a c s, assembleTelegram_pinValid hc a c s⟩
  | walked => exact ⟨rfl, rfl⟩
  | metReserved => exact ⟨rfl, rfl⟩
  | sent _ _ hc a c p => exact ⟨afterSend_pin hc a c p s, afterSend_pinValid hc a c p s⟩
  | ignored => exact ⟨rfl, rfl⟩

/-- Settles O42, by the ways a command can end. -/
theorem onlyInitWritesThePin : Obligations.OnlyInitWritesThePin :=
  fun _ _ _ hi hexec => (exec_ends hexec).pin_kept hi

/-- DIM at every level with no pin to read: the check comes before the guard (R157, R183). -/
theorem dimReceiver_uninit {hc : HomeCode} {a level : Byte} {s : State} (hp : selectedPin s = none) :
    dimReceiver hc a level s = raise .notInitialised s := by rw [dimReceiver, hp]

/-- The four sends with no pin to read write `FAULT` and nothing else (R183). -/
theorem exec_sends_uninit {s : State} (hp : selectedPin s = none) (hc : HomeCode) (a b : Byte) (on : Bool) :
    ∀ i ∈ [Instr.send hc a b, .switch hc a on, .toggle hc a, .dim hc a b],
      exec i s = .next (setFault .notInitialised s) := by
  simp only [List.forall_mem_cons]
  refine ⟨?send, ?switch, ?toggle, ?dim, List.forall_mem_nil _⟩
  case send => rw [exec_send, sendTelegram_uninit hp]; rfl
  case switch => rw [exec_switch, sendTelegram_uninit hp]; rfl
  case toggle => rw [exec_toggle, sendTelegram_uninit hp]; rfl
  case dim => rw [exec_dim, dimReceiver_uninit hp]; rfl

/-- So does TRANSMIT of a non-empty buffer (R183). -/
theorem exec_transmit_uninit {s : State} (hp : selectedPin s = none) (h : s.idx ≠ 0) :
    exec .transmit s = .next (setFault .notInitialised s) := by
  rw [exec_transmit, transmitBuffer_uninit h hp]
  rfl

/-- Settles O50: a `PIN` without a value gives the guarded read nothing, whatever `PIN_VALID` says. -/
theorem readOfAPinWithoutAValueRaises : Obligations.ReadOfAPinWithoutAValueRaises := by
  intro s hc a b on _ hp
  have hnone : selectedPin s = none := selectedPin_noValue hp
  exact ⟨exec_sends_uninit hnone hc a b on, exec_transmit_uninit hnone⟩

end Sys2Proof.Machine

/-! ## A step with a legal word, and the reset state -/

namespace Sys2Proof.Machine

/-- A legal word runs as the command it decodes to (R73). -/
theorem runWord_ok {w : CmdWord} {i : Instr} (hd : decode w = .ok i) (s : State) : runWord w s = exec i s := by
  rw [runWord, hd]

/-- Settles O7: the step is the command between the port's two moves, `accept` and `complete`. -/
theorem stepRunsTheDecodedCommand : Obligations.StepRunsTheDecodedCommand := by
  intro s w rest i hf hm hp hd
  have haccept : accept rest s = { s with port := rest, mode := .busy } := rfl
  rw [step_word hf hm hp, runWord_ok hd, haccept]
  cases exec i { s with port := rest, mode := .busy } with
  | next t => rfl
  | fault r => rfl
  | refused r => rfl

/-- Settles O13: the reset buffer lists no slot and the reset trace no event. -/
theorem resetLeavesTheStatedValues : Obligations.ResetLeavesTheStatedValues :=
  ⟨Memory.read_nil, rfl, rfl, rfl, rfl, rfl, rfl, rfl, rfl, rfl, fun _ => rfl⟩

/-- Settles O15: the reset buffer lists no slot, so every slot holds `SYM_ZERO`. -/
theorem resetMeetsTheInvariant : Obligations.ResetMeetsTheInvariant where
  bufCanonical := Memory.wf_nil
  idxInRange := Nat.zero_le 96
  noReservedSlot _ := show symZero ≠ symReserved by decide
  zeroFromIdx i _ := Memory.read_nil i
  pinHasValue := rfl
  txPtrInRange := Nat.zero_le 96
  repInRange := Nat.zero_le 2
  idleBetween := rfl
  noReservedFault := by decide

end Sys2Proof.Machine

/-! ## The memory's statements (spec/20_memory.md): the buffer's form and the trace along a step -/

namespace Sys2Proof.Machine

/-- Every end of a command leaves a canonical buffer canonical. -/
theorem ExecEnds.wf_kept {i : Instr} {s t : State} (h : ExecEnds s i t) (hw : s.buf.wf) : t.buf.wf := by
  cases h with
  | selected => exact hw
  | uninitialised => exact hw
  | cleared => exact Memory.wf_cleared
  | pushed => exact push_wf hw
  | wrote v => exact writeByte_wf v hw
  | assembled hc a c => exact assembleTelegram_wf hc a c s
  | walked => exact hw
  | metReserved => exact hw
  | sent _ _ hc a c => exact telegramBuffer_wf hc a c
  | ignored => exact hw

/-- Settles O17: the port touches no slot, so the buffer after a step is the one before it or the command's. -/
theorem stepKeepsTheBufferCanonical : Obligations.StepKeepsTheBufferCanonical := by
  intro s t hw hstep
  obtain ⟨-, -, ⟨-, rfl⟩ | ⟨w, rest, -, ⟨e, -, rfl⟩ | ⟨i, u, -, hexec, rfl⟩⟩⟩ := step_cases hstep
  · exact hw
  · exact hw
  · exact (exec_ends hexec).wf_kept (s := accept rest s) hw

/-- Every end of a command leaves the trace's events in place and may append some (R50). -/
theorem ExecEnds.trace_extended {i : Instr} {s t : State} (h : ExecEnds s i t) : s.trace <+: t.trace := by
  cases h with
  | selected => exact List.prefix_append ..
  | uninitialised => exact List.prefix_rfl
  | cleared => exact List.prefix_rfl
  | pushed _ _ v => rw [push_trace]
  | wrote v => rw [writeByte_trace]
  | assembled hc a c => rw [assembleTelegram_trace]
  | walked => exact List.prefix_append ..
  | metReserved => exact List.prefix_append ..
  | sent _ _ hc a c p => exact ⟨_, (afterSend_trace hc a c p s).symm⟩
  | ignored => exact List.prefix_rfl

/-- Settles O44: the port emits nothing, so only the command can lengthen the trace. -/
theorem stepOnlyExtendsTheTrace : Obligations.StepOnlyExtendsTheTrace := by
  intro s t hstep
  suffices h : s.trace <+: t.trace by
    obtain ⟨es, hes⟩ := h
    exact ⟨es, hes.symm⟩
  obtain ⟨-, -, ⟨-, rfl⟩ | ⟨w, rest, -, ⟨e, -, rfl⟩ | ⟨i, u, -, hexec, rfl⟩⟩⟩ := step_cases hstep
  · exact List.prefix_rfl
  · exact List.prefix_rfl
  · exact (exec_ends hexec).trace_extended

end Sys2Proof.Machine

/-! ## The slot map (spec/20_memory.md R46, R47): the encoder's pushes are the tables' frame -/

namespace Sys2Proof.Machine

/-- A list of bits has an odd number of ones exactly when their XOR is 1. -/
theorem count_true_odd (bs : List Bool) : (bs.count true % 2 == 1) = bs.foldr xor false := by
  induction bs with
  | nil => rfl
  | cons b bs ih =>
    rw [List.foldr_cons, ← ih, List.count_cons]
    rcases Nat.mod_two_eq_zero_or_one (bs.count true) with h | h <;> cases b <;> simp [Nat.add_mod, h]

/-- The parity bit is the XOR of the byte's bits (R110). -/
theorem parity_eq_xorOfBits (v : Byte) : parity v = xorOfBits v := by
  rw [parity, popcount, count_true_odd]
  simp [bitsMsbFirst, xorOfBits, Bool.xor_comm]

/-- The high byte of a home code is its quotient by 256 (R112). -/
theorem homeCodeHigh_toNat (hc : HomeCode) : (homeCodeHigh hc).toNat = hc.toNat / 256 := by
  rw [homeCodeHigh, BitVec.extractLsb_toNat, Nat.shiftRight_eq_div_pow]
  omega

/-- The low byte of a home code is its remainder by 256 (R112). -/
theorem homeCodeLow_toNat (hc : HomeCode) : (homeCodeLow hc).toNat = hc.toNat % 256 := by
  rw [homeCodeLow, BitVec.extractLsb_toNat, Nat.shiftRight_zero]

/-- The sum with wrap-around is the full-width sum modulo 256 (R111). -/
theorem checksum_toNat (hc : HomeCode) (a c : Byte) :
    (checksum hc a c).toNat = (0x06 + hc.toNat / 256 + hc.toNat % 256 + a.toNat + c.toNat) % 256 := by
  have hseed : Config.checksumSeed.toNat = 0x06 := rfl
  simp only [checksum, BitVec.toNat_add, hseed, homeCodeHigh_toNat, homeCodeLow_toNat]
  omega

theorem telegramByte_homeCodeHigh (hc : HomeCode) (a c : Byte) : telegramByte hc a c 0 = homeCodeHigh hc := by
  have hlt : hc.toNat / 256 < 256 := Nat.div_lt_of_lt_mul hc.isLt
  apply BitVec.eq_of_toNat_eq
  simp [telegramByte, homeCodeHigh_toNat, hlt]

theorem telegramByte_homeCodeLow (hc : HomeCode) (a c : Byte) : telegramByte hc a c 1 = homeCodeLow hc := by
  apply BitVec.eq_of_toNat_eq
  simp [telegramByte, homeCodeLow_toNat]

theorem telegramByte_checksum (hc : HomeCode) (a c : Byte) : telegramByte hc a c 4 = checksum hc a c := by
  apply BitVec.eq_of_toNat_eq
  simp [telegramByte, checksum_toNat]

/-- The nine bits of a byte's group in the frame: the byte, the most significant bit first, then `P` (R61). -/
def groupBits (v : Byte) : List Bool := bitsMsbFirst v ++ [xorOfBits v]

/-- The symbols WRITEBYTE pushes are the bits of its group. -/
theorem byteSymbols_eq_groupBits (v : Byte) : byteSymbols v = (groupBits v).map dataSymbol := by
  rw [byteSymbols, groupBits, parity_eq_xorOfBits, List.map_append, List.map_singleton]

/-- The frame by its fields: preamble, start marker, five groups, end marker (R61). -/
theorem frame_eq_groups (hc : HomeCode) (a c : Byte) :
    frame hc a c = List.replicate Config.syncLen false ++ [true] ++ groupBits (telegramByte hc a c 0) ++
      groupBits (telegramByte hc a c 1) ++ groupBits (telegramByte hc a c 2) ++ groupBits (telegramByte hc a c 3) ++
      groupBits (telegramByte hc a c 4) ++ [false] := rfl

/-- The symbols ASSEMBLE pushes before the END-MARKER are the bits of the frame. -/
theorem frameSymbols_eq_frame (hc : HomeCode) (a c : Byte) : frameSymbols hc a c = (frame hc a c).map dataSymbol := by
  have haddr : telegramByte hc a c 2 = a := rfl
  have hcmd : telegramByte hc a c 3 = c := rfl
  rw [frame_eq_groups, telegramByte_homeCodeHigh, telegramByte_homeCodeLow, haddr, hcmd, telegramByte_checksum]
  simp only [List.map_append, List.map_replicate, ← byteSymbols_eq_groupBits]
  rfl

/-- Every slot of an assembled buffer holds what the slot map gives it (R46). -/
theorem telegramBuffer_read_slot (hc : HomeCode) (a c : Byte) (i : Nat) :
    (telegramBuffer hc a c).read i = telegramSlot hc a c i := by
  rw [telegramBuffer_read, telegramSlot]
  rcases Nat.lt_trichotomy i 59 with hframe | rfl | habove
  · rw [if_pos hframe, List.getElem?_append_left hframe, frameSymbols_eq_frame, frame]
    simp [hframe, dataSymbol]
  · rfl
  · have hlen : (frameSymbols hc a c ++ [symEnd]).length ≤ i := habove
    rw [if_neg (by omega), if_neg (by omega), List.getElem?_eq_none hlen, Option.getD_none]

/-- Settles O24: ASSEMBLE is one update of the state, and the buffer it writes is the slot map's. -/
theorem assembleBuildsTheSlotMap : Obligations.AssembleBuildsTheSlotMap := by
  intro s hc a c
  refine ⟨_, exec_assemble hc a c s, fun i => ?_, ?_⟩
  · rw [assembleTelegram_buf, telegramBuffer_read_slot]
  · rw [telegramByte_homeCodeHigh, telegramByte_homeCodeLow, telegramByte_checksum, assembleTelegram_buf]
    exact assembleTelegram_state hc a c s

end Sys2Proof.Machine

/-! ## The encoding's statements (spec/30_encoding.md): the legal words are the encoded ones -/

namespace Sys2Proof

/-- The opcodes by what they name: nothing for the reserved six, the three pushes for 0x9, and one operation for each of
the other nine (R72). -/
theorem opcode_cases (op : BitVec 4) :
    op ∈ [0x0, 0x6, 0x7, 0xD, 0xE, 0xF] ∨ op = 0x9 ∨ op = 0x1 ∨ op = 0x2 ∨ op = 0x3 ∨ op = 0x4 ∨ op = 0x5 ∨
      op = 0x8 ∨ op = 0xA ∨ op = 0xB ∨ op = 0xC := by
  revert op
  decide

theorem usedMask_eq_none_iff (op : BitVec 4) : usedMask op = none ↔ op ∈ [0x0, 0x6, 0x7, 0xD, 0xE, 0xF] := by
  revert op
  decide

/-- A `B` other than the three symbol codes is refused. -/
theorem pushOf_unknown {b : Byte} (h : b ∉ [0x00, 0x01, 0x02]) : pushOf b = .error .unknownSymbolCode := by
  simp only [List.mem_cons, List.not_mem_nil, or_false, not_or, ← BitVec.toNat_inj] at h
  unfold pushOf
  split <;> simp_all

section
variable {op : BitVec 4} {hc : HomeCode} {a b : Byte} {f : Bool} {i : Instr}

/-- A reserved opcode has no operation. -/
theorem operationOf_reserved (h : op ∈ [0x0, 0x6, 0x7, 0xD, 0xE, 0xF]) :
    operationOf op hc a b f = .error .reservedOpcode := by
  simp only [List.mem_cons, List.not_mem_nil, or_false] at h
  rcases h with rfl | rfl | rfl | rfl | rfl | rfl <;> rfl

/-- A word is legal exactly when its unused fields are 0 and its opcode and operands name an operation. -/
theorem decode_cmdWord_eq_ok_iff :
    decode (cmdWord op hc a b f) = .ok i ↔ unusedFieldsZero op hc a b f = true ∧ operationOf op hc a b f = .ok i := by
  rw [decode_cmdWord]
  by_cases hr : usedMask op = none
  · simp [hr, operationOf_reserved ((usedMask_eq_none_iff op).mp hr)]
  · cases hu : unusedFieldsZero op hc a b f <;> simp [hr]

/-- Fields that name a push and are 0 where a push uses none are the fields of the push's word. -/
theorem encode_of_pushOf (hu : unusedFieldsZero 0x9 hc a b f = true) (hp : pushOf b = .ok i) :
    encode i = cmdWord 0x9 hc a b f := by
  obtain ⟨rfl, rfl, rfl⟩ : hc = 0 ∧ a = 0 ∧ f = false := by simpa [unusedFieldsZero, and_assoc] using hu
  by_cases hb : b ∈ [0x00, 0x01, 0x02]
  · simp only [List.mem_cons, List.not_mem_nil, or_false] at hb
    rcases hb with rfl | rfl | rfl <;> exact Except.ok.inj hp ▸ rfl
  · rw [pushOf_unknown hb] at hp
    cases hp

/-- Fields that name an instruction, with the unused ones at 0, are the fields of the instruction's word. -/
theorem encode_of_operationOf (hu : unusedFieldsZero op hc a b f = true) (ho : operationOf op hc a b f = .ok i) :
    encode i = cmdWord op hc a b f := by
  rcases opcode_cases op with hr | rfl | hop
  · rw [operationOf_reserved hr] at ho
    cases ho
  · exact encode_of_pushOf hu ho
  · rcases hop with rfl | rfl | rfl | rfl | rfl | rfl | rfl | rfl | rfl
    all_goals
      obtain rfl := Except.ok.inj ho
      simp_all [unusedFieldsZero, encode]

end

/-- Settles O1: an instruction's word has 0 in its unused fields, and its opcode and operands name the instruction. -/
theorem encodedInstructionDecodesBack : Obligations.EncodedInstructionDecodesBack := by
  intro i
  cases i <;> exact decode_cmdWord_eq_ok_iff.mpr ⟨rfl, rfl⟩

/-- Settles O2: a legal word has its reserved field at 0, so it is the word of its fields, and these are the fields of
the instruction they name. -/
theorem legalWordIsTheEncodingOfItsInstruction : Obligations.LegalWordIsTheEncodingOfItsInstruction := by
  intro w i hd
  by_cases hz : zField w = 0#3
  · rw [← cmdWord_fields hz] at hd ⊢
    obtain ⟨hu, ho⟩ := decode_cmdWord_eq_ok_iff.mp hd
    exact encode_of_operationOf hu ho
  · obtain ⟨e, he⟩ := decode_of_zField hz
    cases hd.symm.trans he

/-- The two directions of the round trip as one equivalence. -/
theorem decode_eq_ok_iff {w : CmdWord} {i : Instr} : decode w = .ok i ↔ encode i = w :=
  ⟨legalWordIsTheEncodingOfItsInstruction w i, fun h => h ▸ encodedInstructionDecodesBack i⟩

/-! ### The table's rows: a word under a mask, field by field -/

/-- A word is the word of given fields exactly when it has them and its reserved field is 0. -/
theorem cmdWord_eq_iff {op : BitVec 4} {hc : HomeCode} {a b : Byte} {f : Bool} {w : CmdWord} :
    cmdWord op hc a b f = w ↔
      opField w = op ∧ hcField w = hc ∧ adField w = a ∧ bField w = b ∧ zField w = 0#3 ∧ fField w = f := by
  constructor
  · rintro rfl
    simp
  · rintro ⟨rfl, rfl, rfl, rfl, hz, rfl⟩
    exact cmdWord_fields hz

/-- A masked word, field by field. -/
theorem and_eq_cmdWord_iff {op : BitVec 4} {hc : HomeCode} {a b : Byte} {f : Bool} (w m : CmdWord) :
    w &&& m = cmdWord op hc a b f ↔
      opField w &&& opField m = op ∧ hcField w &&& hcField m = hc ∧ adField w &&& adField m = a ∧
        bField w &&& bField m = b ∧ zField w &&& zField m = 0#3 ∧ (fField w && fField m) = f := by
  rw [eq_comm, cmdWord_eq_iff]
  simp [opField, hcField, adField, bField, zField, fField, BitVec.extractLsb_and]

/-- A field under a mask of ones is the field. -/
theorem and_fieldOfOnes :
    (∀ x : BitVec 3, x &&& 0x7#3 = x) ∧ (∀ x : BitVec 4, x &&& 0xF#4 = x) ∧ (∀ x : BitVec 8, x &&& 0xFF#8 = x) ∧
      ∀ x : BitVec 16, x &&& 0xFFFF#16 = x :=
  ⟨fun _ => BitVec.and_allOnes, fun _ => BitVec.and_allOnes, fun _ => BitVec.and_allOnes, fun _ => BitVec.and_allOnes⟩

section
variable {op : BitVec 4} {hc : HomeCode} {a b : Byte} {on : Bool} {w : CmdWord}

/-- A row whose operand is `B`. -/
theorem byteRow_iff :
    cmdWord op 0 0 b false = w ↔ w &&& 0xFFFFFFF00F#40 = cmdWord op 0 0 0 false ∧ bField w = b := by
  rw [cmdWord_eq_iff, and_eq_cmdWord_iff]
  simp [opField, hcField, adField, bField, zField, fField, and_fieldOfOnes, and_comm, and_left_comm]

/-- A row whose operands are `HC`, `AD` and `B`. -/
theorem telegramRow_iff :
    cmdWord op hc a b false = w ↔
      w &&& 0xF00000000F#40 = cmdWord op 0 0 0 false ∧ hcField w = hc ∧ adField w = a ∧ bField w = b := by
  rw [cmdWord_eq_iff, and_eq_cmdWord_iff]
  simp [opField, hcField, adField, bField, zField, fField, and_fieldOfOnes, and_assoc, and_comm, and_left_comm]

/-- A row whose operands are `HC`, `AD` and `F`. -/
theorem flagRow_iff :
    cmdWord op hc a 0 on = w ↔
      w &&& 0xF000000FFE#40 = cmdWord op 0 0 0 false ∧ hcField w = hc ∧ adField w = a ∧ fField w = on := by
  rw [cmdWord_eq_iff, and_eq_cmdWord_iff]
  simp [opField, hcField, adField, bField, zField, fField, and_fieldOfOnes, and_assoc, and_comm, and_left_comm]

/-- A row whose operands are `HC` and `AD`. -/
theorem addressRow_iff :
    cmdWord op hc a 0 false = w ↔
      w &&& 0xF000000FFF#40 = cmdWord op 0 0 0 false ∧ hcField w = hc ∧ adField w = a := by
  rw [cmdWord_eq_iff, and_eq_cmdWord_iff]
  simp [opField, hcField, adField, bField, zField, fField, and_fieldOfOnes, and_assoc, and_comm, and_left_comm]

end

/-- Settles O3: the row's words are the encodings of its command, and a row without operands has one word. -/
theorem decodeFollowsTheTableRows : Obligations.DecodeFollowsTheTableRows := by
  intro w
  have hone : ∀ {i : Instr} {v : CmdWord}, encode i = v → (decode w = .ok i ↔ w = v) := fun hv =>
    decode_eq_ok_iff.trans (hv ▸ eq_comm)
  exact ⟨fun p => decode_eq_ok_iff.trans byteRow_iff, fun hc a c => decode_eq_ok_iff.trans telegramRow_iff,
    fun hc a on => decode_eq_ok_iff.trans flagRow_iff, fun hc a => decode_eq_ok_iff.trans addressRow_iff,
    fun hc a l => decode_eq_ok_iff.trans telegramRow_iff, hone rfl, hone rfl, hone rfl, hone rfl,
    fun v => decode_eq_ok_iff.trans byteRow_iff, fun hc a c => decode_eq_ok_iff.trans telegramRow_iff, hone rfl⟩

/-! ### The reserved and illegal encodings (R74) -/

section
variable {op : BitVec 4} {hc : HomeCode} {a b : Byte} {f : Bool}

/-- A field that its operation does not use is not 0, written as R74's list of opcodes. -/
theorem unusedFieldsZero_eq_false_iff :
    unusedFieldsZero op hc a b f = false ↔
      (op ∈ [0x2, 0x5, 0xB] ∧ f = true) ∨ (op = 0x3 ∧ b ≠ 0) ∨ (op = 0x4 ∧ (b ≠ 0 ∨ f = true)) ∨
        (op ∈ [0x1, 0x9, 0xA] ∧ (hc ≠ 0 ∨ a ≠ 0 ∨ f = true)) ∨
        (op ∈ [0x8, 0xC] ∧ (hc ≠ 0 ∨ a ≠ 0 ∨ b ≠ 0 ∨ f = true)) := by
  rcases opcode_cases op with hr | hop
  · simp only [List.mem_cons, List.not_mem_nil, or_false] at hr
    rcases hr with rfl | rfl | rfl | rfl | rfl | rfl <;> simp [unusedFieldsZero]
  · rcases hop with rfl | rfl | rfl | rfl | rfl | rfl | rfl | rfl | rfl | rfl <;>
      simp [unusedFieldsZero, ← imp_iff_not_or]

/-- Among the opcodes that have an operation only PUSH's can name none: by its `B`. -/
theorem operationOf_eq_error_iff (hop : op ∉ [0x0, 0x6, 0x7, 0xD, 0xE, 0xF]) :
    (∃ e, operationOf op hc a b f = .error e) ↔ op = 0x9 ∧ b ∉ [0x00, 0x01, 0x02] := by
  rcases opcode_cases op with hr | rfl | h
  · exact absurd hr hop
  · by_cases hb : b ∈ [0x00, 0x01, 0x02]
    · simp only [List.mem_cons, List.not_mem_nil, or_false] at hb
      rcases hb with rfl | rfl | rfl <;> simp [operationOf, pushOf]
    · simp only [true_and, iff_true_right hb]
      exact ⟨_, pushOf_unknown hb⟩
  · rcases h with rfl | rfl | rfl | rfl | rfl | rfl | rfl | rfl | rfl <;> simp [operationOf]

/-- The illegal words among those whose reserved field is 0. -/
theorem decode_cmdWord_eq_error_iff :
    (∃ e, decode (cmdWord op hc a b f) = .error e) ↔
      op ∈ [0x0, 0x6, 0x7, 0xD, 0xE, 0xF] ∨ unusedFieldsZero op hc a b f = false ∨
        (op = 0x9 ∧ b ∉ [0x00, 0x01, 0x02]) := by
  rw [decode_cmdWord]
  by_cases hr : op ∈ [0x0, 0x6, 0x7, 0xD, 0xE, 0xF]
  · rw [if_pos ((usedMask_eq_none_iff op).mpr hr)]
    exact iff_of_true ⟨_, rfl⟩ (.inl hr)
  · rw [if_neg (mt (usedMask_eq_none_iff op).mp hr), or_iff_right hr,
      ← operationOf_eq_error_iff (hc := hc) (a := a) (f := f) hr]
    cases unusedFieldsZero op hc a b f <;> simp

end

/-- A word is illegal exactly when it is on R74's list. -/
theorem decode_eq_error_iff (w : CmdWord) :
    (∃ e, decode w = .error e) ↔
      opField w ∈ [0x0, 0x6, 0x7, 0xD, 0xE, 0xF] ∨ zField w ≠ 0#3 ∨
        unusedFieldsZero (opField w) (hcField w) (adField w) (bField w) (fField w) = false ∨
        (opField w = 0x9 ∧ bField w ∉ [0x00, 0x01, 0x02]) := by
  by_cases hz : zField w = 0#3
  · conv_lhs => rw [← cmdWord_fields hz]
    simp only [decode_cmdWord_eq_error_iff, hz, ne_eq, not_true_eq_false, false_or]
  · exact iff_of_true (decode_of_zField hz) (.inr (.inl hz))

/-- Settles O4: the list is the decoder's tests in R73's order, with the mask test read opcode by opcode. -/
theorem reservedEncodingsAreRefused : Obligations.ReservedEncodingsAreRefused := by
  refine ⟨fun w => ?_, fun w e s he => ?_, ⟨_, rfl⟩⟩
  · rw [decode_eq_error_iff, unusedFieldsZero_eq_false_iff]
    simp only [or_assoc]
    rfl
  · rw [Machine.runWord, he]
    rfl

end Sys2Proof

/-! ## The assembler's statement (spec/30_encoding.md R76) -/

namespace Sys2Proof

theorem withinLimits_nil {vs : List Nat} (h : withinLimits vs [] = true) : vs = [] := by
  cases vs with
  | nil => rfl
  | cons => cases h

/-- Operands in their ranges start with one for the first limit, given as the value `x` it is the number of. -/
theorem withinLimits_cons {α : Type} {f : α → Nat} {m : Nat} {vs ms : List Nat} (hf : ∀ v ≤ m, ∃ x, f x = v)
    (h : withinLimits vs (m :: ms) = true) : ∃ x us, vs = f x :: us ∧ withinLimits us ms = true := by
  cases vs with
  | nil => cases h
  | cons v us =>
    obtain ⟨hv, hus⟩ : v ≤ m ∧ withinLimits us ms = true := by simpa [withinLimits] using h
    obtain ⟨x, rfl⟩ := hf v hv
    exact ⟨x, us, rfl, hus⟩

/-- A number of a home code's range is a home code's. -/
theorem exists_homeCode : ∀ v ≤ 0xFFFF, ∃ x : HomeCode, x.toNat = v := fun v hv =>
  ⟨.ofNatLT v (Nat.lt_succ_of_le hv), rfl⟩

/-- A number of a byte's range is a byte's. -/
theorem exists_byte : ∀ v ≤ 0xFF, ∃ x : Byte, x.toNat = v := fun v hv => ⟨.ofNatLT v (Nat.lt_succ_of_le hv), rfl⟩

/-- A number of the flag's range is a flag's. -/
theorem exists_flag : ∀ v ≤ 1, ∃ x : Bool, x.toNat = v := by decide

/-- The operands of the commands that name a receiver begin with a home code and an address. -/
theorem withinLimits_receiver {vs ms : List Nat} (h : withinLimits vs (0xFFFF :: 0xFF :: ms) = true) :
    ∃ (hc : HomeCode) (a : Byte) (us : List Nat), vs = hc.toNat :: a.toNat :: us ∧ withinLimits us ms = true := by
  obtain ⟨hc, _, rfl, hrest⟩ := withinLimits_cons exists_homeCode h
  obtain ⟨a, us, rfl, hus⟩ := withinLimits_cons exists_byte hrest
  exact ⟨hc, a, us, rfl, hus⟩

/-- An operand list of one limit. -/
theorem withinLimits_singleton {α : Type} {f : α → Nat} {m : Nat} {vs : List Nat} (hf : ∀ v ≤ m, ∃ x, f x = v)
    (h : withinLimits vs [m] = true) : ∃ x, vs = [f x] := by
  obtain ⟨x, _, rfl, hus⟩ := withinLimits_cons hf h
  obtain rfl := withinLimits_nil hus
  exact ⟨x, rfl⟩

/-- Every operand of an instruction is in its range. -/
theorem sourceLine_wellFormed (i : Instr) : (sourceLine i).wellFormed = true := by
  have h16 : ∀ x : HomeCode, x.toNat ≤ 0xFFFF := fun x => Nat.le_of_lt_succ x.isLt
  have h8 : ∀ x : Byte, x.toNat ≤ 0xFF := fun x => Nat.le_of_lt_succ x.isLt
  cases i <;>
    simp [SourceLine.wellFormed, sourceLine, Mnemonic.operandLimits, withinLimits, h16, h8, Bool.toNat_le]

/-- The operands of an instruction's line name the instruction. -/
theorem instrOf_sourceLine (i : Instr) : instrOf (sourceLine i).mnemonic (sourceLine i).operands = some i := by
  cases i with
  | switch hc a on => cases on <;> simp [sourceLine, instrOf]
  | _ => simp [sourceLine, instrOf]

/-- A line that can be encoded is the line of an instruction. -/
theorem exists_sourceLine_eq {l : SourceLine} (h : l.wellFormed = true) : ∃ i, sourceLine i = l := by
  obtain ⟨m, vs⟩ := l
  cases m with
  | init =>
    obtain ⟨p, rfl⟩ := withinLimits_singleton exists_byte h
    exact ⟨.init p, rfl⟩
  | send =>
    obtain ⟨hc, a, _, rfl, hrest⟩ := withinLimits_receiver h
    obtain ⟨c, rfl⟩ := withinLimits_singleton exists_byte hrest
    exact ⟨.send hc a c, rfl⟩
  | switch =>
    obtain ⟨hc, a, _, rfl, hrest⟩ := withinLimits_receiver h
    obtain ⟨on, rfl⟩ := withinLimits_singleton exists_flag hrest
    exact ⟨.switch hc a on, rfl⟩
  | toggle =>
    obtain ⟨hc, a, _, rfl, hrest⟩ := withinLimits_receiver h
    obtain rfl := withinLimits_nil hrest
    exact ⟨.toggle hc a, rfl⟩
  | dim =>
    obtain ⟨hc, a, _, rfl, hrest⟩ := withinLimits_receiver h
    obtain ⟨level, rfl⟩ := withinLimits_singleton exists_byte hrest
    exact ⟨.dim hc a level, rfl⟩
  | clear => exact ⟨.clear, by obtain rfl := withinLimits_nil h; rfl⟩
  | push0 => exact ⟨.push0, by obtain rfl := withinLimits_nil h; rfl⟩
  | push1 => exact ⟨.push1, by obtain rfl := withinLimits_nil h; rfl⟩
  | pushEnd => exact ⟨.pushEnd, by obtain rfl := withinLimits_nil h; rfl⟩
  | writeByte =>
    obtain ⟨v, rfl⟩ := withinLimits_singleton exists_byte h
    exact ⟨.writeByte v, rfl⟩
  | assemble =>
    obtain ⟨hc, a, _, rfl, hrest⟩ := withinLimits_receiver h
    obtain ⟨c, rfl⟩ := withinLimits_singleton exists_byte hrest
    exact ⟨.assemble hc a c, rfl⟩
  | transmit => exact ⟨.transmit, by obtain rfl := withinLimits_nil h; rfl⟩

theorem assembleLine_sourceLine (i : Instr) : assembleLine (sourceLine i) = some i := by
  rw [assembleLine, if_pos (sourceLine_wellFormed i), instrOf_sourceLine]

/-- A line is ill formed and refused, or it is some instruction's. -/
theorem assembleLine_cases (l : SourceLine) :
    (l.wellFormed = false ∧ assembleLine l = none) ∨ ∃ i, sourceLine i = l := by
  cases hw : l.wellFormed with
  | false => exact .inl ⟨rfl, by simp [assembleLine, hw]⟩
  | true => exact .inr (exists_sourceLine_eq hw)

/-- Settles O6: a line is refused, or it is some instruction's and assembles to that one. -/
theorem assemblerTakesExactlyTheEncodableLines : Obligations.AssemblerTakesExactlyTheEncodableLines := by
  refine ⟨fun l i => ⟨fun h => ?_, fun h => h ▸ assembleLine_sourceLine i⟩, fun l => ?_⟩
  · rcases assembleLine_cases l with ⟨-, hnone⟩ | ⟨j, rfl⟩
    · cases hnone.symm.trans h
    · rw [Option.some.inj ((assembleLine_sourceLine j).symm.trans h)]
  · rcases assembleLine_cases l with ⟨hill, hnone⟩ | ⟨j, rfl⟩
    · exact iff_of_true hnone hill
    · simp [assembleLine_sourceLine, sourceLine_wellFormed]

end Sys2Proof

/-! ## The equivalences of R77: a command as a sequence of smaller ones -/

namespace Sys2Proof.Machine

/-- A command that ends unfaulted hands its state to the rest of the sequence. -/
theorem execAll_cons {i : Instr} {is : List Instr} {s t : State} (h : exec i s = .next t) (hf : t.fault = .noFault) :
    execAll (i :: is) s = execAll is t := by simp [execAll, h, hf]

@[simp] theorem pushAll_fault (vs : List Symbol) (s : State) : (pushAll vs s).fault = s.fault := by
  rw [pushAll_frame, setBuffer_fault]

/-! ### Sequences of commands that only push -/

/-- The symbols a command appends to the buffer, for the commands that do nothing else. -/
def pushedSymbols : Instr → List Symbol
  | .push0 => [symZero]
  | .push1 => [symOne]
  | .pushEnd => [symEnd]
  | .writeByte v => byteSymbols v
  | _ => []

/-- The command does nothing but push its symbols. -/
def OnlyPushes (i : Instr) : Prop := ∀ s, exec i s = .next (pushAll (pushedSymbols i) s)

theorem onlyPushes_push0 : OnlyPushes .push0 := fun _ => rfl

theorem onlyPushes_push1 : OnlyPushes .push1 := fun _ => rfl

theorem onlyPushes_pushEnd : OnlyPushes .pushEnd := fun _ => rfl

theorem onlyPushes_writeByte (v : Byte) : OnlyPushes (.writeByte v) := fun _ => rfl

theorem onlyPushes_pushBit (b : Bool) : OnlyPushes (pushBit b) := by
  cases b
  · exact onlyPushes_push0
  · exact onlyPushes_push1

theorem pushedSymbols_pushBit (b : Bool) : pushedSymbols (pushBit b) = [dataSymbol b] := by cases b <;> rfl

/-- Commands that only push, one after the other, push all their symbols. -/
theorem execAll_onlyPushes {is : List Instr} {s : State} (hp : ∀ i ∈ is, OnlyPushes i) (hf : s.fault = .noFault) :
    execAll is s = .next (pushAll (is.flatMap pushedSymbols) s) := by
  induction is generalizing s with
  | nil => rfl
  | cons i is ih =>
    rw [List.forall_mem_cons] at hp
    rw [execAll_cons (hp.1 s) (by simpa using hf), ih hp.2 (by simpa using hf), List.flatMap_cons, pushAll_append]

theorem flatMap_pushedSymbols_pushBit (bs : List Bool) :
    (bs.map pushBit).flatMap pushedSymbols = bs.map dataSymbol := by
  simp only [List.flatMap_map, pushedSymbols_pushBit, ← List.map_eq_flatMap]

/-- A byte's commands are the PUSHes of its bits, the most significant first, and of its parity. -/
theorem writeByteCommands_eq_map (v : Byte) : writeByteCommands v = (bitsMsbFirst v ++ [parity v]).map pushBit := rfl

/-- Settles O41: the nine commands push the nine symbols of the byte. -/
theorem writeByteEqualsItsPushes : Obligations.WriteByteEqualsItsPushes := by
  intro s v hf
  have honly : ∀ i ∈ writeByteCommands v, OnlyPushes i := by
    rw [writeByteCommands_eq_map]
    exact List.forall_mem_map.mpr fun b _ => onlyPushes_pushBit b
  have hsym : (writeByteCommands v).flatMap pushedSymbols = byteSymbols v := by
    rw [writeByteCommands_eq_map, flatMap_pushedSymbols_pushBit, List.map_append]
    rfl
  rw [execAll_onlyPushes honly hf, hsym]
  rfl

/-! ### ASSEMBLE -/

/-- ASSEMBLE's commands begin with the CLEAR. -/
theorem assembleCommands_eq (hc : HomeCode) (a c : Byte) :
    assembleCommands hc a c = .clear :: (assembleCommands hc a c).tail := rfl

theorem onlyPushes_assembleCommands_tail {hc : HomeCode} {a c : Byte} :
    ∀ i ∈ (assembleCommands hc a c).tail, OnlyPushes i := by
  simp [assembleCommands, onlyPushes_push0, onlyPushes_push1, onlyPushes_pushEnd, onlyPushes_writeByte]

/-- The commands after the CLEAR push the telegram and its END-MARKER. -/
theorem pushedSymbols_assembleCommands_tail (hc : HomeCode) (a c : Byte) :
    (assembleCommands hc a c).tail.flatMap pushedSymbols = frameSymbols hc a c ++ [symEnd] := rfl

/-- No push reads or writes a latch. -/
theorem push_setLatches (v : Symbol) (hi lo a c cs : Byte) (s : State) :
    push v (setLatches hi lo a c cs s) = setLatches hi lo a c cs (push v s) := by
  rcases Nat.lt_or_ge s.idx.toNat 96 with hroom | hfull
  · rw [push_room hroom, push_room (s := setLatches hi lo a c cs s) hroom]
    rfl
  · rw [push_full hfull, push_full (s := setLatches hi lo a c cs s) hfull]

theorem pushAll_setLatches (vs : List Symbol) (hi lo a c cs : Byte) (s : State) :
    pushAll vs (setLatches hi lo a c cs s) = setLatches hi lo a c cs (pushAll vs s) := by
  induction vs generalizing s with
  | nil => rfl
  | cons v vs ih => rw [pushAll_cons, pushAll_cons, push_setLatches, ih]

/-- ASSEMBLE is its pushes on the cleared buffer, and then the loading of the latches. -/
theorem assembleTelegram_eq_setLatches (hc : HomeCode) (a c : Byte) (s : State) :
    assembleTelegram hc a c s =
      setLatches (homeCodeHigh hc) (homeCodeLow hc) a c (checksum hc a c)
        (pushAll (frameSymbols hc a c ++ [symEnd]) (clearBuffer s)) := by
  rw [assembleTelegram_eq, ← pushAll_setLatches]
  rfl

/-- Settles O40: both push the same symbols on a cleared buffer, and only ASSEMBLE loads the latches. -/
theorem assembleEqualsItsCommandSequence : Obligations.AssembleEqualsItsCommandSequence := by
  intro s hc a c hf
  refine ⟨_, exec_assemble hc a c s, ?_⟩
  rw [assembleCommands_eq, execAll_cons (exec_clear s) hf,
    execAll_onlyPushes (s := clearBuffer s) onlyPushes_assembleCommands_tail hf,
    pushedSymbols_assembleCommands_tail, assembleTelegram_eq_setLatches, pushAll_frame _ (clearBuffer s)]
  simp only [setLatches, setBuffer, clearBuffer]

/-! ### SEND -/

/-- The state after an ASSEMBLE and a TRANSMIT on pin `p`. -/
def afterTelegram (hc : HomeCode) (a c : Byte) (p : Pin) (s : State) : State :=
  setTxPtr 59 (emit ((frameSymbols hc a c).flatMap (symbolEvents p)) (assembleTelegram hc a c s))

/-! `afterTelegram` field by field, as far as the next telegram needs it. -/

section
variable (hc : HomeCode) (a c : Byte) (p : Pin) (s : State)
@[simp] theorem afterTelegram_pin : (afterTelegram hc a c p s).pin = s.pin := by
  rw [afterTelegram, setTxPtr_pin, emit_pin, assembleTelegram_pin]
@[simp] theorem afterTelegram_pinValid : (afterTelegram hc a c p s).pinValid = s.pinValid := by
  rw [afterTelegram, setTxPtr_pinValid, emit_pinValid, assembleTelegram_pinValid]
@[simp] theorem afterTelegram_fault : (afterTelegram hc a c p s).fault = s.fault := by
  rw [afterTelegram, setTxPtr_fault, emit_fault, assembleTelegram_fault]
@[simp] theorem afterTelegram_trace :
    (afterTelegram hc a c p s).trace = s.trace ++ (frameSymbols hc a c).flatMap (symbolEvents p) := by
  rw [afterTelegram, setTxPtr_trace, emit_trace, assembleTelegram_trace]
end

/-- ASSEMBLE and TRANSMIT at the head of a sequence. -/
theorem execAll_assemble_transmit {hc : HomeCode} {a c : Byte} {p : Pin} {s : State} (is : List Instr)
    (hv : s.pinValid = true) (hp : s.pin = some p) (hf : s.fault = .noFault) :
    execAll (.assemble hc a c :: .transmit :: is) s = execAll is (afterTelegram hc a c p s) := by
  have ht : exec .transmit (assembleTelegram hc a c s) = .next (afterTelegram hc a c p s) := by
    rw [exec_transmit, transmitBuffer_assembled hv hp]
    rfl
  rw [execAll_cons (exec_assemble hc a c s) (by simpa using hf), execAll_cons ht (by simpa [afterTelegram] using hf)]

/-- No pulse waits as long as a gap. -/
theorem gap_notMem_symbolEvents (p : Pin) (v : Symbol) : Event.sleep 8000 ∉ symbolEvents p v := by
  unfold symbolEvents
  split
  · simp [Config.t0HighUs, Config.t0LowUs]
  · split
    · simp [Config.t1HighUs, Config.t1LowUs]
    · simp

/-- Taking out the gaps takes out no event of a pulse. -/
theorem filter_gap_pulses (p : Pin) (vs : List Symbol) :
    (vs.flatMap (symbolEvents p)).filter (fun e => decide (e ≠ .sleep 8000)) = vs.flatMap (symbolEvents p) := by
  rw [List.filter_eq_self]
  intro e he
  obtain ⟨v, -, hev⟩ := List.mem_flatMap.mp he
  exact decide_eq_true fun hgap => gap_notMem_symbolEvents p v (hgap ▸ hev)

/-- Settles O39: each pair of commands sends the telegram that a repetition of the SEND sends. -/
theorem sendEqualsAssembleTransmitSequence : Obligations.SendEqualsAssembleTransmitSequence := by
  intro s p hc a c hv hp hf
  have hsend : exec (.send hc a c) s = .next (afterSend hc a c p s) := by
    rw [exec_send, sendTelegram_eq hv hp]
    rfl
  refine ⟨_, afterTelegram hc a c p (afterTelegram hc a c p (afterTelegram hc a c p s)), _, hsend, ?_,
    afterSend_trace hc a c p s, ?_, ?_⟩
  · rw [execAll_assemble_transmit _ hv hp hf,
      execAll_assemble_transmit (p := p) _ (by simpa using hv) (by simpa using hp) (by simpa using hf),
      execAll_assemble_transmit (p := p) _ (by simpa using hv) (by simpa using hp) (by simpa using hf)]
    rfl
  · have hgap : [Event.sleep Config.gapUs].filter (fun e => decide (e ≠ .sleep 8000)) = [] := rfl
    simp only [afterTelegram_trace, List.filter_append, filter_gap_pulses, hgap, List.nil_append, List.append_assoc]
  · simp only [afterTelegram, assembleTelegram_state, afterSend, setTxPtr, emit, setBuffer, loadLatches, setLatches,
      setRep]

/-! ### The public commands -/

/-- DIM up to its bound is a TOGGLE, whether a pin is selected or not. -/
theorem dimReceiver_eq_toggle {hc : HomeCode} {a level : Byte} (h : level.toNat ≤ 0x10) (s : State) :
    dimReceiver hc a level s = toggleReceiver hc a s := by
  cases hp : selectedPin s with
  | none => rw [dimReceiver_uninit hp, toggleReceiver, sendTelegram_uninit hp]
  | some p =>
    have hl : level ≤ Config.dimMax := h
    rw [dimReceiver, hp]
    exact if_pos hl

/-- Settles O38: SWITCH and TOGGLE are their sends by definition, and DIM up to its bound is a TOGGLE. -/
theorem publicCommandsEqualSends : Obligations.PublicCommandsEqualSends := by
  intro s hc a l
  refine ⟨rfl, rfl, rfl, fun hl => ?_⟩
  rw [exec_dim, dimReceiver_eq_toggle hl]
  rfl

end Sys2Proof.Machine

/-! ## The invariant along a step (spec/40_buffer.md R95): the four parts of it that a command can touch -/

namespace Sys2Proof.Machine

/-- What R95 says of the buffer and its index, with the canonical form that a read after a write needs. -/
structure SoundBuffer (m : Memory) (i : SlotIx) : Prop where
  canonical : m.wf
  idxInRange : i.toNat ≤ 96
  noReserved : ∀ k, m.read k ≠ symReserved
  zeroFromIdx : ∀ k, i.toNat ≤ k → m.read k = symZero

theorem State.Inv.soundBuffer {s : State} (h : s.Inv) : SoundBuffer s.buf s.idx :=
  ⟨h.bufCanonical, h.idxInRange, h.noReservedSlot, h.zeroFromIdx⟩

/-- The empty buffer, after reset or CLEAR. -/
theorem soundBuffer_cleared : SoundBuffer Memory.cleared 0 :=
  ⟨Memory.wf_cleared, Nat.zero_le 96, fun _ => show symZero ≠ symReserved by decide, fun k _ => Memory.read_cleared k⟩

/-- A push writes the one slot at `IDX` and moves `IDX` above it, or changes nothing. -/
theorem push_soundBuffer {v : Symbol} {s : State} (hv : v ≠ symReserved) (h : SoundBuffer s.buf s.idx) :
    SoundBuffer (push v s).buf (push v s).idx := by
  rcases Nat.lt_or_ge s.idx.toNat 96 with hroom | hfull
  · have hread := push_read (v := v) h.canonical hroom
    have hidx := push_idx (v := v) hroom
    refine ⟨push_wf h.canonical, by omega, fun k => ?_, fun k hk => ?_⟩
    · rw [hread]
      split
      · exact hv
      · exact h.noReserved k
    · rw [hread, if_neg (by omega)]
      exact h.zeroFromIdx k (by omega)
  · rwa [push_full hfull]

theorem pushAll_soundBuffer {vs : List Symbol} {s : State} (hv : ∀ v ∈ vs, v ≠ symReserved)
    (h : SoundBuffer s.buf s.idx) : SoundBuffer (pushAll vs s).buf (pushAll vs s).idx := by
  induction vs generalizing s with
  | nil => exact h
  | cons v vs ih =>
    rw [List.forall_mem_cons] at hv
    exact ih hv.2 (push_soundBuffer hv.1 h)

/-- A data symbol is not the reserved code. -/
theorem ne_symReserved_of_data {v : Symbol} (h : v = symZero ∨ v = symOne) : v ≠ symReserved := by
  rcases h with rfl | rfl <;> decide

theorem writeByte_soundBuffer (b : Byte) {s : State} (h : SoundBuffer s.buf s.idx) :
    SoundBuffer (writeByte b s).buf (writeByte b s).idx :=
  pushAll_soundBuffer (fun _ hv => ne_symReserved_of_data (byteSymbols_data hv)) h

/-- ASSEMBLE starts from a cleared buffer, so its result is sound whatever the buffer was. -/
theorem assembleTelegram_soundBuffer (hc : HomeCode) (a c : Byte) (s : State) :
    SoundBuffer (assembleTelegram hc a c s).buf (assembleTelegram hc a c s).idx := by
  rw [assembleTelegram_eq]
  refine pushAll_soundBuffer (fun v hv => ?_) soundBuffer_cleared
  rcases List.mem_append.mp hv with hframe | hend
  · exact ne_symReserved_of_data (frameSymbols_data hframe)
  · rw [List.mem_singleton.mp hend]
    decide

/-- The buffer a send leaves is the one ASSEMBLE leaves. -/
theorem afterSend_soundBuffer (hc : HomeCode) (a c : Byte) (p : Pin) (s : State) :
    SoundBuffer (afterSend hc a c p s).buf (afterSend hc a c p s).idx := by
  have h := assembleTelegram_soundBuffer hc a c s
  rwa [assembleTelegram_buf, assembleTelegram_idx] at h

/-- Every end of a command keeps the buffer sound. -/
theorem ExecEnds.soundBuffer_kept {i : Instr} {s t : State} (h : ExecEnds s i t) (hb : SoundBuffer s.buf s.idx) :
    SoundBuffer t.buf t.idx := by
  cases h with
  | selected => exact hb
  | uninitialised => exact hb
  | cleared => exact soundBuffer_cleared
  | pushed _ _ v hv => exact push_soundBuffer hv hb
  | wrote v => exact writeByte_soundBuffer v hb
  | assembled hc a c => exact assembleTelegram_soundBuffer hc a c s
  | walked => exact hb
  | metReserved => exact hb
  | sent _ _ hc a c p => exact afterSend_soundBuffer hc a c p s
  | ignored => exact hb

/-- INIT writes the pin and its valid bit together, and no other command writes either (R23, R24). -/
theorem ExecEnds.pinHasValue_kept {i : Instr} {s t : State} (h : ExecEnds s i t) (hp : s.pinValid = s.pin.isSome) :
    t.pinValid = t.pin.isSome := by
  cases h with
  | selected => rfl
  | _ => simpa [clearBuffer] using hp

/-- Every end of a command leaves `TX_PTR` and `REP` in their ranges (R27, R29). -/
theorem ExecEnds.counters_inRange {i : Instr} {s t : State} (h : ExecEnds s i t) (hx : s.txPtr.toNat ≤ 96)
    (hr : s.rep.toNat ≤ 2) : t.txPtr.toNat ≤ 96 ∧ t.rep.toNat ≤ 2 := by
  cases h with
  | selected => exact ⟨hx, hr⟩
  | uninitialised => exact ⟨hx, hr⟩
  | cleared => exact ⟨hx, hr⟩
  | pushed _ _ v => rw [push_txPtr, push_rep]; exact ⟨hx, hr⟩
  | wrote v => rw [writeByte_txPtr, writeByte_rep]; exact ⟨hx, hr⟩
  | assembled hc a c => rw [assembleTelegram_txPtr, assembleTelegram_rep]; exact ⟨hx, hr⟩
  | walked es k _ hk => exact ⟨hk.elim (fun he => he ▸ hx) id, hr⟩
  | metReserved es k _ hk => exact ⟨hk.elim (fun he => he ▸ hx) id, hr⟩
  | sent => exact ⟨show (59 : SlotIx).toNat ≤ 96 by decide, show (2 : BitVec 2).toNat ≤ 2 by decide⟩
  | ignored => exact ⟨hx, hr⟩

/-- With no reserved code in a slot a command leaves `FAULT` as it was, or `NOT_INITIALISED` (R135, R184). -/
theorem ExecEnds.fault_of_noReserved {i : Instr} {s t : State} (h : ExecEnds s i t)
    (hn : ∀ k, s.buf.read k ≠ symReserved) : t.fault = s.fault ∨ t.fault = .notInitialised := by
  cases h with
  | uninitialised => exact .inr rfl
  | metReserved _ _ _ _ hr =>
    obtain ⟨j, -, hj⟩ := hr
    exact absurd hj (hn j)
  | selected => exact .inl rfl
  | cleared => exact .inl rfl
  | pushed _ _ v => exact .inl (push_fault v s)
  | wrote v => exact .inl (writeByte_fault v s)
  | assembled hc a c => exact .inl (assembleTelegram_fault hc a c s)
  | walked => exact .inl rfl
  | sent => exact .inl rfl
  | ignored => exact .inl rfl

/-- A command that the port has taken and completed keeps the invariant: all of it but `MODE`, which the port sets, is
one of the four parts. -/
theorem ExecEnds.inv_completed {i : Instr} {s u : State} {rest : List CmdWord} (h : ExecEnds (accept rest s) i u)
    (hs : s.Inv) : (setMode .idle u).Inv := by
  obtain ⟨hwf, hidx, hreserved, hzero⟩ := h.soundBuffer_kept hs.soundBuffer
  obtain ⟨hptr, hrep⟩ := h.counters_inRange hs.txPtrInRange hs.repInRange
  have hpin : u.pinValid = u.pin.isSome := h.pinHasValue_kept hs.pinHasValue
  have hfault : u.fault ≠ .reservedSymbol := by
    rcases h.fault_of_noReserved hs.noReservedSlot with hkept | hraised
    · rw [hkept]
      exact hs.noReservedFault
    · rw [hraised]
      decide
  exact ⟨hwf, hidx, hreserved, hzero, hpin, hptr, hrep, rfl, hfault⟩

/-- Settles O16: a step waits, writes `FAULT` for an illegal word, or runs a command, which keeps each part of the
invariant. -/
theorem stepKeepsTheInvariant : Obligations.StepKeepsTheInvariant := by
  intro s t hs hstep
  obtain ⟨-, -, ⟨-, rfl⟩ | ⟨w, rest, -, ⟨e, -, rfl⟩ | ⟨i, u, -, hexec, rfl⟩⟩⟩ := step_cases hstep
  · exact hs
  · exact { hs with idleBetween := rfl, noReservedFault := show FaultCode.illegalCommand ≠ .reservedSymbol by decide }
  · exact (exec_ends hexec).inv_completed hs

end Sys2Proof.Machine

/-! ## The bit buffer's statements (spec/40_buffer.md): its words, CLEAR and PUSH -/

namespace Sys2Proof

/-- Settles O5: a legal word is its command's encoding; the illegal ones meet the decoder's tests in R73's order. -/
theorem specsOwnWordsDecode : Obligations.SpecsOwnWordsDecode := by
  have legal : ∀ {i : Instr} {w : CmdWord}, encode i = w → decode w = .ok i := decode_eq_ok_iff.mpr
  exact ⟨legal rfl, legal rfl, legal rfl, legal rfl, legal rfl, legal rfl, legal rfl, legal rfl, legal rfl,
    rfl, rfl, rfl⟩

/-- Only CLEAR's word carries its opcode among the words of instructions (R72). -/
theorem eq_clear_of_opField_encode {i : Instr} (h : opField (encode i) = 0x8) : i = .clear := by
  cases i <;> simp [encode] at h ⊢

end Sys2Proof

namespace Sys2Proof.Machine

/-- TRANSMIT after a CLEAR finds an empty buffer and does nothing (R132). -/
theorem exec_transmit_clearBuffer (s : State) : exec .transmit (clearBuffer s) = .next (clearBuffer s) := by
  rw [exec_transmit, transmitBuffer_empty rfl]
  rfl

/-- Settles O19: a legal word of CLEAR's opcode is the encoding of CLEAR, and CLEAR is one update of the buffer. -/
theorem clearEmptiesTheBuffer : Obligations.ClearEmptiesTheBuffer := by
  refine ⟨rfl, fun w hop hne => ?_, fun s =>
    ⟨_, exec_clear s, Memory.read_cleared, rfl, exec_transmit_clearBuffer s⟩⟩
  cases hd : decode w with
  | error e => exact ⟨e, rfl⟩
  | ok i =>
    obtain rfl := decode_eq_ok_iff.mp hd
    obtain rfl := eq_clear_of_opField_encode hop
    exact absurd rfl hne

/-- Settles O20: each of the three commands is the push of its symbol. -/
theorem pushAppendsOrDropsSilently : Obligations.PushAppendsOrDropsSilently := by
  intro s hw iv hiv
  have hexec : exec iv.1 s = .next (push iv.2 s) := by
    simp only [List.mem_cons, List.not_mem_nil, or_false] at hiv
    rcases hiv with rfl | rfl | rfl
    · exact exec_push0 s
    · exact exec_push1 s
    · exact exec_pushEnd s
  rw [hexec]
  refine ⟨fun hroom => ⟨_, rfl, ?_, fun i hi => ?_, push_idx hroom, push_frame iv.2 s⟩, fun hfull => ?_⟩
  · rw [push_read hw hroom, if_pos rfl]
  · rw [push_read hw hroom, if_neg hi]
  · rw [push_full hfull]

end Sys2Proof.Machine


/-! ## The encoder's statements (spec/41_encoder.md): the check values, WRITEBYTE's pushes and ASSEMBLE's telegram -/

namespace Sys2Proof.Machine

/-! ### The check values (R110, R111) -/

/-- The parity bit as a number (R110). -/
theorem parity_toNat (v : Byte) : (parity v).toNat = popcount v % 2 := by
  rw [parity]
  rcases Nat.mod_two_eq_zero_or_one (popcount v) with heven | hodd
  · rw [heven]
    rfl
  · rw [hodd]
    rfl

/-- The nine bits of a byte and its parity hold an even number of ones (R110). -/
theorem popcount_add_parity_even (v : Byte) : (popcount v + (parity v).toNat) % 2 = 0 := by
  rw [parity_toNat]
  omega

/-- Settles O21: the parity is the count's remainder, so adding it makes the count even. -/
theorem parityMakesAnEvenTotal : Obligations.ParityMakesAnEvenTotal :=
  ⟨fun v => ⟨parity_eq_xorOfBits v, parity_toNat v, popcount_add_parity_even v⟩, rfl, rfl, rfl, rfl, rfl⟩

/-- The full-width sum behind the checksum: the seed and four bytes (R111). -/
theorem checksum_sum_le (hc : HomeCode) (a c : Byte) :
    0x06 + hc.toNat / 256 + hc.toNat % 256 + a.toNat + c.toNat ≤ 0x402 := by
  have hhc := hc.isLt
  have ha := a.isLt
  have hcmd := c.isLt
  omega

/-- Settles O22: the home code's bytes and the sum as numbers. -/
theorem checksumIsTheSumModulo256 : Obligations.ChecksumIsTheSumModulo256 := fun hc a c =>
  ⟨homeCodeHigh_toNat hc, homeCodeLow_toNat hc, checksum_toNat hc a c, checksum_sum_le hc a c, rfl⟩

/-! ### WRITEBYTE (R114) -/

/-- The symbol at place `k < 8` of a byte's group is the byte's bit `7 - k` (R44). -/
theorem byteSymbols_getElem?_bit (v : Byte) {k : Nat} (h : k < 8) :
    (byteSymbols v)[k]? = some (dataSymbol (v.getLsbD (7 - k))) := by
  interval_cases k <;> rfl

/-- The last symbol of a byte's group is its parity (R110). -/
theorem byteSymbols_getElem?_parity (v : Byte) : (byteSymbols v)[8]? = some (dataSymbol (xorOfBits v)) := by
  rw [byteSymbols_eq_groupBits]
  rfl

/-- A slot that WRITEBYTE has room for holds the symbol pushed on it. -/
theorem writeByte_read {v : Byte} {s : State} {k : Nat} {x : Symbol} (hw : s.buf.wf)
    (hroom : s.idx.toNat + k < 96) (hx : (byteSymbols v)[k]? = some x) :
    (writeByte v s).buf.read (s.idx.toNat + k) = x := by
  rw [writeByte, pushAll_read _ hw (by omega), if_pos ⟨Nat.le_add_right _ _, hroom⟩, Nat.add_sub_cancel_left, hx,
    Option.getD_some]

/-- The slots below `IDX`, past the ninth push and past the buffer's end are as before. -/
theorem writeByte_read_other {v : Byte} {s : State} {i : Nat} (hw : s.buf.wf) (hidx : s.idx.toNat ≤ 96)
    (hi : i < s.idx.toNat ∨ s.idx.toNat + 9 ≤ i ∨ 96 ≤ i) : (writeByte v s).buf.read i = s.buf.read i := by
  rw [writeByte, pushAll_read _ hw hidx]
  split
  · have hpast : (byteSymbols v).length ≤ i - s.idx.toNat := by
      rw [byteSymbols_length]
      omega
    rw [List.getElem?_eq_none hpast, Option.getD_none]
  · rfl

/-- Settles O23: WRITEBYTE is the pushes of the byte's nine symbols. -/
theorem writeBytePushesNineSymbols : Obligations.WriteBytePushesNineSymbols := by
  intro s v hw hidx
  exact ⟨_, exec_writeByte v s, pushAll_idx (byteSymbols v) hidx,
    fun k hk hroom => writeByte_read hw hroom (byteSymbols_getElem?_bit v hk),
    fun hroom => writeByte_read hw hroom (byteSymbols_getElem?_parity v),
    fun i hi => writeByte_read_other hw hidx hi, writeByte_frame v s⟩

/-! ### ASSEMBLE (R115, R116) -/

/-- Settles O26: the buffer, the index and the latches are those of the operands, whatever the state was. -/
theorem assembleForgetsTheOldBuffer : Obligations.AssembleForgetsTheOldBuffer := by
  intro s s' t t' hc a c ht ht'
  obtain rfl := Host.Outcome.next.inj ht
  obtain rfl := Host.Outcome.next.inj ht'
  simp only [assembleTelegram_buf, assembleTelegram_idx, assembleTelegram_hcHi, assembleTelegram_hcLo,
    assembleTelegram_addr, assembleTelegram_cmd, assembleTelegram_csum, and_self]

/-- Bit `k` of the frame's group `j` is bit `7 - k` of the telegram's byte `j`, and its parity for `k = 8` (R61). -/
theorem frameBit_group (hc : HomeCode) (a c : Byte) {j k : Nat} (hj : j < 5) (hk : k < 9) :
    frameBit hc a c (13 + 9 * j + k) =
      if k < 8 then (telegramByte hc a c j).getLsbD (7 - k) else xorOfBits (telegramByte hc a c j) := by
  have hbyte : (13 + 9 * j + k - 13) / 9 = j := by omega
  have hbit : (13 + 9 * j + k - 13) % 9 = k := by omega
  rw [frameBit, if_neg (by omega), if_neg (by omega), if_pos (by omega), hbyte, hbit]

/-- Slot `k` of the slot map's group `j` holds symbol `k` of the telegram's byte `j` (R46, R47). -/
theorem byteSymbols_telegramByte_getElem? (hc : HomeCode) (a c : Byte) {j k : Nat} (hj : j < 5) (hk : k < 9) :
    (byteSymbols (telegramByte hc a c j))[k]? = some (telegramSlot hc a c (13 + 9 * j + k)) := by
  rw [telegramSlot, if_pos (by omega), frameBit_group hc a c hj hk]
  rcases Nat.lt_succ_iff_lt_or_eq.mp hk with hdata | rfl
  · rw [byteSymbols_getElem?_bit _ hdata, if_pos hdata]
    rfl
  · exact byteSymbols_getElem?_parity _

/-- The nine slots of group `j` of the slot map. -/
theorem telegramSlot_group (hc : HomeCode) (a c : Byte) {j : Nat} (hj : j < 5) :
    ((List.range 9).map fun k => telegramSlot hc a c (13 + 9 * j + k)) = byteSymbols (telegramByte hc a c j) := by
  refine List.ext_getElem rfl fun k _ hk => ?_
  rw [List.getElem_map, List.getElem_range, eq_comm, List.getElem_eq_iff,
    byteSymbols_telegramByte_getElem? hc a c hj hk]

/-- A byte's group has an even number of `SYM_ONE` (R116). -/
theorem byteSymbols_count_symOne_even (v : Byte) : (byteSymbols v).count symOne % 2 = 0 := by
  have hinj : Function.Injective dataSymbol := by decide
  have hcount : (byteSymbols v).count symOne = popcount v + (parity v).toNat := by
    have hone : symOne = dataSymbol true := rfl
    rw [byteSymbols, ← List.map_singleton, ← List.map_append, hone, List.count_map_of_injective _ _ hinj,
      List.count_append, popcount]
    cases parity v <;> rfl
  rw [hcount, popcount_add_parity_even]

/-- The slot map has one END-MARKER (R116). -/
theorem telegramSlot_eq_symEnd_iff (hc : HomeCode) (a c : Byte) (i : Nat) :
    telegramSlot hc a c i = symEnd ↔ i = 59 := by
  have hdata : ∀ b, dataSymbol b ≠ symEnd := by decide
  rw [telegramSlot]
  rcases Nat.lt_trichotomy i 59 with hframe | rfl | habove
  · rw [if_pos hframe]
    exact iff_of_false (hdata _) (Nat.ne_of_lt hframe)
  · exact iff_of_true rfl rfl
  · rw [if_neg (by omega), if_neg (by omega)]
    exact iff_of_false (by decide) (by omega)

/-- Settles O25: each property is one of the slot map, which ASSEMBLE leaves in the buffer. -/
theorem assembledTelegramProperties : Obligations.AssembledTelegramProperties := by
  intro s t hc a c ht
  obtain rfl := Host.Outcome.next.inj ht
  have hstart : ∀ g ∈ [13, 22, 31, 40, 49], ∃ j < 5, g = 13 + 9 * j := by decide
  simp only [assembleTelegram_buf, telegramBuffer_read_slot]
  refine ⟨⟨fun i hi => ?_, rfl⟩, ⟨rfl, rfl⟩, fun k hk => ?_, fun g hg => ?_,
    assembleTelegram_idx hc a c s, telegramSlot_eq_symEnd_iff hc a c, fun i hi _ => ?_⟩
  · rw [telegramSlot, if_pos (by omega), frameBit, if_pos hi]
    rfl
  · have hslot := byteSymbols_telegramByte_getElem? hc a c (j := 4) (k := k) (by decide) (by omega)
    rw [telegramByte_checksum, byteSymbols_getElem?_bit _ hk] at hslot
    exact (Option.some.inj hslot).symm
  · obtain ⟨j, hj, rfl⟩ := hstart g hg
    rw [telegramSlot_group hc a c hj, byteSymbols_count_symOne_even]
  · rw [telegramSlot, if_neg (by omega), if_neg (by omega)]

/-! ### Totality (R113, R186) -/

/-- However a command's pseudocode ends, its outcome is a next state. -/
theorem CmdResult.exists_outcome_eq_next (r : CmdResult) : ∃ t, r.outcome = .next t := by
  cases r with
  | done t => exact ⟨t, rfl⟩
  | raised t => exact ⟨t, rfl⟩

/-- Every command answers a next state from every state. -/
theorem exists_exec_eq_next (i : Instr) (s : State) : ∃ t, exec i s = .next t := by
  cases i with
  | init p => exact ⟨_, exec_init p s⟩
  | send hc a c => exact (sendTelegram hc a c s).exists_outcome_eq_next
  | switch hc a on => exact (sendTelegram hc a (switchCommand on) s).exists_outcome_eq_next
  | toggle hc a => exact (toggleReceiver hc a s).exists_outcome_eq_next
  | dim hc a level => exact (dimReceiver hc a level s).exists_outcome_eq_next
  | clear => exact ⟨_, exec_clear s⟩
  | push0 => exact ⟨_, exec_push0 s⟩
  | push1 => exact ⟨_, exec_push1 s⟩
  | pushEnd => exact ⟨_, exec_pushEnd s⟩
  | writeByte v => exact ⟨_, exec_writeByte v s⟩
  | assemble hc a c => exact ⟨_, exec_assemble hc a c s⟩
  | transmit => exact (transmitBuffer s).exists_outcome_eq_next

/-- Settles O51: every command answers a next state, and the inversion of `exec` says where that state's `FAULT` is. -/
theorem everyCommandAnswersANextState : Obligations.EveryCommandAnswersANextState := by
  intro i s
  obtain ⟨t, ht⟩ := exists_exec_eq_next i s
  refine ⟨t, ht, ?_⟩
  rcases (exec_ends ht).fault_cases with hkept | rfl | hreserved
  · exact .inl hkept
  · exact .inr (.inl rfl)
  · exact .inr (.inr hreserved)

end Sys2Proof.Machine

/-! ## The transmitter's statements (spec/42_transmit.md): whole pulses, TRANSMIT's walk, the telegram's waveform -/

namespace Sys2Proof.Machine

/-! ### Whole pulses (R130, R131) -/

/-- Every event a send emits belongs to a whole pulse or is a gap. -/
theorem afterSend_pulsesPaired (hc : HomeCode) (a c : Byte) (p : Pin) {s : State} (h : pulsesPaired s.trace = true) :
    pulsesPaired (afterSend hc a c p s).trace = true := by
  have hframe := pulsesPaired_flatMap p (frameSymbols hc a c)
  have hgap : pulsesPaired [.sleep Config.gapUs] = true := rfl
  have hone := pulsesPaired_append hframe hgap
  have htwo := pulsesPaired_append (pulsesPaired_append hone hframe) hgap
  rw [afterSend_trace]
  exact pulsesPaired_append h (pulsesPaired_append htwo hframe)

/-- Every end of a command leaves a trace of whole pulses one of whole pulses. -/
theorem ExecEnds.pulsesPaired_kept {i : Instr} {s t : State} (h : ExecEnds s i t) (hs : pulsesPaired s.trace = true) :
    pulsesPaired t.trace = true := by
  cases h with
  | selected p => exact pulsesPaired_append (fs := [.setDirOut p]) hs rfl
  | uninitialised => exact hs
  | cleared => exact hs
  | pushed _ _ v => rwa [push_trace]
  | wrote v => rwa [writeByte_trace]
  | assembled hc a c => rwa [assembleTelegram_trace]
  | walked _ _ he => exact pulsesPaired_append hs he
  | metReserved _ _ he => exact pulsesPaired_append hs he
  | sent _ _ hc a c p => exact afterSend_pulsesPaired hc a c p hs
  | ignored => exact hs

/-- Settles O18: the port emits nothing, and a command appends whole pulses, gaps or INIT's one event. -/
theorem stepKeepsPulsesWhole : Obligations.StepKeepsPulsesWhole := by
  intro s t hs hstep
  obtain ⟨-, -, ⟨-, rfl⟩ | ⟨w, rest, -, ⟨e, -, rfl⟩ | ⟨i, u, -, hexec, rfl⟩⟩⟩ := step_cases hstep
  · exact hs
  · exact hs
  · exact (exec_ends hexec).pulsesPaired_kept (s := accept rest s) hs

/-! ### The waveform of the symbols sent (R130) -/

/-- The line code of a data bit's symbol is the bit's pulse. -/
theorem symbolEvents_dataSymbol (p : Pin) (b : Bool) : symbolEvents p (dataSymbol b) = pulse p b := by
  cases b <;> rfl

/-- The waveform of some bits is what their symbols emit. -/
theorem flatMap_symbolEvents_dataSymbol (p : Pin) (bs : List Bool) :
    (bs.map dataSymbol).flatMap (symbolEvents p) = waveform p bs := by
  simp only [List.flatMap_map, symbolEvents_dataSymbol, waveform]

/-- A data symbol is the symbol of the bit it carries. -/
theorem dataSymbol_of_isData {v : Symbol} (hv : isData v = true) : dataSymbol (v == symOne) = v := by
  have hdata : v = symZero ∨ v = symOne := by simpa [isData] using hv
  rcases hdata with rfl | rfl <;> rfl

/-- The symbols before the walk's stop are those of the bits it sends. -/
theorem sentBits_map_dataSymbol (s : State) : (sentBits s).map dataSymbol = (slotSymbols s).takeWhile isData := by
  have hid : ∀ v ∈ (slotSymbols s).takeWhile isData, (dataSymbol ∘ (· == symOne)) v = id v :=
    fun v hv => dataSymbol_of_isData (List.mem_takeWhile_imp hv)
  rw [sentBits, List.map_map, List.map_congr_left hid, List.map_id]

/-! ### TRANSMIT -/

/-- The state in which TRANSMIT's walk on pin `p` stops (R133). -/
def afterWalk (p : Pin) (s : State) : State :=
  setTxPtr (BitVec.ofNat 7 (sentBits s).length) (emit (waveform p (sentBits s)) s)

theorem sentBits_length_le (s : State) : (sentBits s).length ≤ 96 := by
  have h := (List.takeWhile_sublist isData (l := slotSymbols s)).length_le
  simpa [sentBits, slotSymbols] using h

/-- The pointer stands past the slots sent: it can hold every position of the walk (R27). -/
theorem afterWalk_txPtr (p : Pin) (s : State) : (afterWalk p s).txPtr.toNat = (sentBits s).length := by
  have h := sentBits_length_le s
  rw [afterWalk, setTxPtr_txPtr, BitVec.toNat_ofNat]
  omega

/-- TRANSMIT of a non-empty buffer with a pin: the walk, then its end by the symbol it stopped at. -/
theorem transmitBuffer_eq_endWalk {p : Pin} {s : State} (h : s.idx ≠ 0) (hv : s.pinValid = true)
    (hp : s.pin = some p) : transmitBuffer s = endWalk (stopSymbol s) (afterWalk p s) := by
  rw [transmitBuffer_walk h hv hp, ← sentBits_map_dataSymbol]
  simp [afterSending, afterWalk, flatMap_symbolEvents_dataSymbol, setTxPtr, emit]

/-- Settles O27, by the empty-buffer test. -/
theorem transmitOnAnEmptyBufferDoesNothing : Obligations.TransmitOnAnEmptyBufferDoesNothing := by
  intro s h
  rw [exec_transmit, transmitBuffer_empty h]
  rfl

/-- Settles O28: the walk stops at no reserved code, so the command ends where the walk stopped. -/
theorem transmitSendsUpToTheFirstEnd : Obligations.TransmitSendsUpToTheFirstEnd := by
  intro s p h hv hp hstop
  refine ⟨afterWalk p s, ?_, rfl, afterWalk_txPtr p s, rfl⟩
  rw [exec_transmit, transmitBuffer_eq_endWalk h hv hp, endWalk, if_neg hstop]
  rfl

/-- Settles O29: the fault is raised in the state in which the walk stopped. -/
theorem transmitRaisesOnTheReservedSymbol : Obligations.TransmitRaisesOnTheReservedSymbol := by
  intro s p h hv hp hstop
  refine ⟨setFault .reservedSymbol (afterWalk p s), ?_, rfl, rfl, afterWalk_txPtr p s, rfl⟩
  rw [exec_transmit, transmitBuffer_eq_endWalk h hv hp, endWalk, if_pos hstop]
  rfl

/-! ### A second TRANSMIT (R134) -/

/-- The events TRANSMIT emits from `s`: a function of the buffer, its index and the pin registers alone. -/
def transmittedEvents (s : State) : List Event :=
  if s.idx = 0 then []
  else
    match selectedPin s with
    | none => []
    | some p => waveform p (sentBits s)

/-- However the walk ends, its events are in the trace. -/
theorem endWalk_outcome_trace {stop : Option Symbol} {s t : State} (h : (endWalk stop s).outcome = .next t) :
    t.trace = s.trace := by
  unfold endWalk at h
  split at h
  · exact Host.Outcome.next.inj h ▸ rfl
  · exact Host.Outcome.next.inj h ▸ rfl

theorem exec_transmit_trace {s t : State} (h : exec .transmit s = .next t) :
    t.trace = s.trace ++ transmittedEvents s := by
  rw [exec_transmit] at h
  unfold transmittedEvents
  split
  case isTrue hempty =>
    rw [transmitBuffer_empty hempty] at h
    exact Host.Outcome.next.inj h ▸ (List.append_nil _).symm
  case isFalse hidx =>
    split
    case h_1 hnone =>
      rw [transmitBuffer_uninit hidx hnone] at h
      exact Host.Outcome.next.inj h ▸ (List.append_nil _).symm
    case h_2 p hsome =>
      obtain ⟨hv, hp⟩ := selectedPin_eq_some.mp hsome
      rw [transmitBuffer_eq_endWalk hidx hv hp] at h
      exact endWalk_outcome_trace h

/-- TRANSMIT leaves the buffer and its index alone, whatever it meets. -/
theorem exec_transmit_buffer {s t : State} (h : exec .transmit s = .next t) : t.buf = s.buf ∧ t.idx = s.idx := by
  rw [exec_transmit] at h
  rcases transmitBuffer_ends s with ⟨he, -, -⟩ | ⟨es, k, -, -, he | ⟨he, -⟩⟩
  all_goals
    rw [he] at h
    exact Host.Outcome.next.inj h ▸ ⟨rfl, rfl⟩

theorem transmittedEvents_congr {s t : State} (hbuf : t.buf = s.buf) (hidx : t.idx = s.idx) (hpin : t.pin = s.pin)
    (hvalid : t.pinValid = s.pinValid) : transmittedEvents t = transmittedEvents s := by
  simp only [transmittedEvents, selectedPin, sentBits, slotSymbols, hbuf, hidx, hpin, hvalid]

/-- Settles O30: TRANSMIT leaves everything alone that its events depend on. -/
theorem repeatedTransmitSendsTheSameWaveform : Obligations.RepeatedTransmitSendsTheSameWaveform := by
  refine ⟨fun s t => exec_transmit_buffer, fun s t u hfirst _ hsecond => ⟨transmittedEvents s, ?_, ?_⟩⟩
  · exact exec_transmit_trace hfirst
  · obtain ⟨hbuf, hidx⟩ := exec_transmit_buffer hfirst
    obtain ⟨hpin, hvalid⟩ := (exec_ends hfirst).pin_kept (by simp)
    rw [exec_transmit_trace hsecond, transmittedEvents_congr hbuf hidx hpin hvalid]

/-! ### The telegram's waveform (R136) -/

theorem frame_length (hc : HomeCode) (a c : Byte) : (frame hc a c).length = 59 := by
  rw [frame, List.length_map, List.length_range]

/-- Four events a bit. -/
theorem waveform_length (p : Pin) (bs : List Bool) : (waveform p bs).length = 4 * bs.length := by
  have hpulse : ∀ b, (pulse p b).length = 4 := fun b => by cases b <;> rfl
  simp [waveform, List.length_flatMap, hpulse, Nat.mul_comm]

/-- A 0 takes 800 microseconds and a 1 takes 1200. -/
theorem sleepTime_waveform (p : Pin) (bs : List Bool) :
    sleepTime (waveform p bs) = 800 * bs.count false + 1200 * bs.count true := by
  induction bs with
  | nil => rfl
  | cons b bs ih =>
    have hcons : waveform p (b :: bs) = pulse p b ++ waveform p bs := List.flatMap_cons ..
    have hpulse : sleepTime (pulse p b) = if b then 1200 else 800 := by cases b <;> rfl
    rw [hcons, sleepTime_append, hpulse, ih]
    cases b
    all_goals
      simp
      omega

/-- Settles O31: the assembled symbols are those of the frame's 59 bits, and `n0 + n1 = 59`. -/
theorem assembledTelegramWaveform : Obligations.AssembledTelegramWaveform := by
  intro s p hc a c hv hp
  have hlength := frame_length hc a c
  have hcount := List.count_false_add_count_true (frame hc a c)
  have htime := sleepTime_waveform p (frame hc a c)
  refine ⟨assembleTelegram hc a c s, afterTelegram hc a c p s, exec_assemble hc a c s, ?_, ?_, ?_, htime, by omega⟩
  · rw [exec_transmit, transmitBuffer_assembled hv hp]
    rfl
  · rw [afterTelegram_trace, assembleTelegram_trace, frameSymbols_eq_frame, flatMap_symbolEvents_dataSymbol]
  · rw [waveform_length, hlength]

/-! ### `RESERVED_SYMBOL` (R135, R184) -/

/-- Settles O45: the fault is raised at a slot that holds the reserved code, and the invariant leaves no such slot. -/
theorem reservedSymbolIsUnreachable : Obligations.ReservedSymbolIsUnreachable := by
  intro i s t hs hexec
  rcases (exec_ends hexec).fault_of_noReserved hs.noReservedSlot with hkept | hraised
  · rw [hkept]
    exact hs.noReservedFault
  · rw [hraised]
    decide

end Sys2Proof.Machine

/-! ## The orchestrator's statements (spec/43_orchestrator.md): INIT, and what the four sends do with a pin -/

namespace Sys2Proof.Machine

/-! ### INIT and the responses (R150, R151) -/

/-- Settles O32: INIT is the register's update, one event and one response, each a write of its own field. -/
theorem initSelectsThePin : Obligations.InitSelectsThePin := fun s p => exec_init p s

/-- Every end of a command but INIT's leaves the responses alone. -/
theorem ExecEnds.responses_kept {i : Instr} {s t : State} (h : ExecEnds s i t) (hi : ∀ p, i ≠ .init p) :
    t.responses = s.responses := by
  cases h with
  | selected p => exact absurd rfl (hi p)
  | uninitialised => rfl
  | cleared => rfl
  | pushed _ _ v => exact push_responses v s
  | wrote v => exact writeByte_responses v s
  | assembled hc a c => exact assembleTelegram_responses hc a c s
  | walked => rfl
  | metReserved => rfl
  | sent _ _ hc a c p => exact afterSend_responses hc a c p s
  | ignored => rfl

/-- A step that answers a next state leaves the block `IDLE`: it waited there, or its command has completed (R28). -/
theorem step_mode {s t : State} (h : step s = .next t) : t.mode = .idle := by
  obtain ⟨-, hidle, ⟨-, rfl⟩ | ⟨w, rest, -, ⟨e, -, rfl⟩ | ⟨i, u, -, -, rfl⟩⟩⟩ := step_cases h
  · exact hidle
  · exact setMode_mode _ _
  · exact setMode_mode _ _

/-- Settles O43, by the ways a command can end and the ways a step can end. -/
theorem onlyInitResponds : Obligations.OnlyInitResponds :=
  ⟨fun s p => ⟨_, exec_init p s, rfl⟩, fun _ _ _ hi hexec => (exec_ends hexec).responses_kept hi,
    fun _ _ _ hstep _ => step_mode hstep⟩

/-! ### The four sends with a pin (R152, R155, R156, R157) -/

section
variable {p : Pin} {s : State} (hv : s.pinValid = true) (hp : s.pin = some p)
include hv hp

theorem exec_send_pinned (hc : HomeCode) (a c : Byte) : exec (.send hc a c) s = .next (afterSend hc a c p s) := by
  rw [exec_send, sendTelegram_eq hv hp]
  rfl

theorem exec_switch_pinned (hc : HomeCode) (a : Byte) (on : Bool) :
    exec (.switch hc a on) s = .next (afterSend hc a (switchCommand on) p s) := exec_send_pinned hv hp hc a _

theorem exec_toggle_pinned (hc : HomeCode) (a : Byte) :
    exec (.toggle hc a) s = .next (afterSend hc a Config.cmdToggle p s) := exec_send_pinned hv hp hc a _

theorem exec_dim_forwarded {level : Byte} (hl : level.toNat ≤ 0x10) (hc : HomeCode) (a : Byte) :
    exec (.dim hc a level) s = .next (afterSend hc a Config.cmdToggle p s) := by
  rw [exec_dim, dimReceiver_eq_toggle hl]
  exact exec_toggle_pinned hv hp hc a

theorem exec_dim_ignored {level : Byte} (hl : 0x10 < level.toNat) (hc : HomeCode) (a : Byte) :
    exec (.dim hc a level) s = .next s := by
  have habove : ¬ level ≤ Config.dimMax := Nat.not_le_of_lt hl
  rw [exec_dim, dimReceiver, selectedPin_of hv hp]
  simp only [if_neg habove]
  rfl
end

/-- The state a send leaves is the one the statements describe: the encoder's symbols are the frame's bits, and the
latches hold the telegram's bytes (R153). -/
theorem sentTelegram_afterSend (hc : HomeCode) (a c : Byte) (p : Pin) (s : State) :
    SentTelegram hc a c p s (afterSend hc a c p s) := by
  refine ⟨?trace, telegramBuffer_read_slot hc a c, ?rest⟩
  case trace =>
    rw [afterSend_trace, frameSymbols_eq_frame, flatMap_symbolEvents_dataSymbol]
    rfl
  case rest =>
    rw [telegramByte_homeCodeHigh, telegramByte_homeCodeLow, telegramByte_checksum]
    rfl

/-- Settles O34: each repetition sends the assembled frame, and the last one leaves it in the buffer. -/
theorem sendTransmitsThreeTelegrams : Obligations.SendTransmitsThreeTelegrams :=
  fun s p hc a c hv hp => ⟨_, exec_send_pinned hv hp hc a c, sentTelegram_afterSend hc a c p s⟩

/-- Settles O35: SWITCH is the SEND of its command byte. -/
theorem switchSendsItsCommandByte : Obligations.SwitchSendsItsCommandByte :=
  fun s p hc a on hv hp => ⟨_, exec_switch_pinned hv hp hc a on, sentTelegram_afterSend hc a (switchCommand on) p s⟩

/-- Settles O36: TOGGLE is the SEND of its command byte. -/
theorem toggleSendsItsCommandByte : Obligations.ToggleSendsItsCommandByte :=
  fun s p hc a hv hp => ⟨_, exec_toggle_pinned hv hp hc a, sentTelegram_afterSend hc a Config.cmdToggle p s⟩

/-- Settles O37: up to the bound DIM is a TOGGLE, and above it the guard ends it. -/
theorem dimForwardsAToggleUpToItsBound : Obligations.DimForwardsAToggleUpToItsBound := by
  intro s p hc a level hv hp
  refine ⟨fun hl => ?upTo, fun hl => ?above⟩
  case upTo => exact ⟨_, exec_dim_forwarded hv hp hl hc a, sentTelegram_afterSend hc a Config.cmdToggle p s⟩
  case above => exact exec_dim_ignored hv hp hl hc a

/-! ### What a send reads (R158) -/

/-- With a pin, what one of the four sends does is fixed by its operands: it sends the telegram of one command byte, or
it is a DIM above the bound and does nothing. -/
theorem exec_sends_pinned (hc : HomeCode) (a b : Byte) (on : Bool) :
    ∀ i ∈ [Instr.send hc a b, .switch hc a on, .toggle hc a, .dim hc a b],
      (∃ c, ∀ (s : State) (p : Pin), s.pinValid = true → s.pin = some p → exec i s = .next (afterSend hc a c p s)) ∨
        ∀ (s : State) (p : Pin), s.pinValid = true → s.pin = some p → exec i s = .next s := by
  simp only [List.forall_mem_cons]
  refine ⟨?send, ?switch, ?toggle, ?dim, List.forall_mem_nil _⟩
  case send => exact .inl ⟨b, fun _ _ hv hp => exec_send_pinned hv hp hc a b⟩
  case switch => exact .inl ⟨switchCommand on, fun _ _ hv hp => exec_switch_pinned hv hp hc a on⟩
  case toggle => exact .inl ⟨Config.cmdToggle, fun _ _ hv hp => exec_toggle_pinned hv hp hc a⟩
  case dim =>
    rcases Nat.lt_or_ge 0x10 b.toNat with hl | hl
    · exact .inr fun _ _ hv hp => exec_dim_ignored hv hp hl hc a
    · exact .inl ⟨Config.cmdToggle, fun _ _ hv hp => exec_dim_forwarded hv hp hl hc a⟩

/-- Settles O47: without a pin both runs write `FAULT` alone; with the same pin both end in `afterSend` of the same
telegram, whose events and buffer depend on the operands and the pin only, or both do nothing. -/
theorem sendsForgetEarlierCommands : Obligations.SendsForgetEarlierCommands := by
  intro s s' t t' hc a b on i hi hpin hvalid hfault hexec hexec'
  have hsel : selectedPin s' = selectedPin s := by rw [selectedPin, selectedPin, hpin, hvalid]
  cases hs : selectedPin s with
  | none =>
    obtain rfl := Host.Outcome.next.inj (hexec.symm.trans (exec_sends_uninit hs hc a b on i hi))
    obtain rfl := Host.Outcome.next.inj (hexec'.symm.trans (exec_sends_uninit (hsel.trans hs) hc a b on i hi))
    exact ⟨⟨[], by simp⟩, rfl, .inr ⟨rfl, rfl, rfl, rfl⟩⟩
  | some p =>
    obtain ⟨hv, hp⟩ := selectedPin_eq_some.mp hs
    obtain ⟨hv', hp'⟩ := selectedPin_eq_some.mp (hsel.trans hs)
    rcases exec_sends_pinned hc a b on i hi with ⟨c, hsent⟩ | hignored
    · obtain rfl := Host.Outcome.next.inj (hexec.symm.trans (hsent s p hv hp))
      obtain rfl := Host.Outcome.next.inj (hexec'.symm.trans (hsent s' p hv' hp'))
      exact ⟨⟨_, afterSend_trace hc a c p s, afterSend_trace hc a c p s'⟩, hfault, .inl ⟨rfl, rfl⟩⟩
    · obtain rfl := Host.Outcome.next.inj (hexec.symm.trans (hignored s p hv hp))
      obtain rfl := Host.Outcome.next.inj (hexec'.symm.trans (hignored s' p hv' hp'))
      exact ⟨⟨[], by simp⟩, hfault, .inr ⟨rfl, rfl, rfl, rfl⟩⟩

end Sys2Proof.Machine

/-! ## The faults' statements (spec/60_exceptions.md): the illegal word, the block before INIT, the halt -/

namespace Sys2Proof.Machine

/-! ### A raised fault and the halted block (R181) -/

/-- What follows a raised fault in a command is not run (R181). -/
theorem raise_andThen (c : FaultCode) (s : State) (k : State → CmdResult) :
    (raise c s).andThen k = .raised (setFault c s) := rfl

/-- A command that ends at a raised fault answers a next state in which only `FAULT` was written (R181). -/
theorem raise_outcome (c : FaultCode) (s : State) : (raise c s).outcome = .next (setFault c s) := rfl

/-- A halted block takes no command (R181). -/
theorem step_halted {s : State} (hf : s.fault ≠ .noFault) : step s = .fault (.halted s.fault) := by
  rw [step, portCycle, if_pos hf]

/-- No end of a command clears `FAULT`: it is kept, or overwritten with a code that is not `NONE`. -/
theorem ExecEnds.faulted_kept {i : Instr} {s t : State} (h : ExecEnds s i t) (hf : s.fault ≠ .noFault) :
    t.fault ≠ .noFault := by
  rcases h.fault_cases with hkept | rfl | hreserved
  · rwa [hkept]
  · simp
  · simp [hreserved]

/-- Settles O9: the raise and the halt are the port's and the sequencing's own rules, and of the ways a command can end
none writes `NONE` to `FAULT`. -/
theorem raisedFaultHaltsTheBlock : Obligations.RaisedFaultHaltsTheBlock :=
  ⟨fun c s k => ⟨raise_andThen c s k, raise_outcome c s⟩, fun _ hf => step_halted hf,
    fun _ _ _ hf hexec => (exec_ends hexec).faulted_kept hf, fun _ => rfl⟩

/-! ### Commands before INIT (R183) -/

/-- The commands that do not drive the line answer a next state with `FAULT` as it was, in every state (R183). -/
theorem exec_offLine_fault (s : State) (p : Pin) (hc : HomeCode) (a b : Byte) :
    ∀ i ∈ [Instr.init p, .clear, .push0, .push1, .pushEnd, .writeByte b, .assemble hc a b],
      ∃ t, exec i s = .next t ∧ t.fault = s.fault := by
  simp only [List.forall_mem_cons]
  refine ⟨?init, ?clear, ?push0, ?push1, ?pushEnd, ?writeByte, ?assemble, List.forall_mem_nil _⟩
  case init => exact ⟨_, exec_init p s, rfl⟩
  case clear => exact ⟨_, exec_clear s, rfl⟩
  case push0 => exact ⟨_, exec_push0 s, push_fault symZero s⟩
  case push1 => exact ⟨_, exec_push1 s, push_fault symOne s⟩
  case pushEnd => exact ⟨_, exec_pushEnd s, push_fault symEnd s⟩
  case writeByte => exact ⟨_, exec_writeByte b s, writeByte_fault b s⟩
  case assemble => exact ⟨_, exec_assemble hc a b s, assembleTelegram_fault hc a b s⟩

/-- Settles O33: with `PIN_VALID` = 0 the guarded read of `PIN` gives nothing, so a command that drives the line ends at
its check, before any other effect. -/
theorem lineCommandsBeforeInitRaise : Obligations.LineCommandsBeforeInitRaise :=
  ⟨fun _ hc a b on hv => exec_sends_uninit (selectedPin_uninit hv) hc a b on,
    fun _ hv hidx => exec_transmit_uninit (selectedPin_uninit hv) hidx, exec_offLine_fault⟩

/-! ### An illegal word (R182) -/

/-- An illegal word writes `FAULT` and nothing else (R182). -/
theorem runWord_error {w : CmdWord} {e : Illegal} (hd : decode w = .error e) (s : State) :
    runWord w s = .next (setFault .illegalCommand s) := by
  rw [runWord, hd, raise_outcome]

/-- Settles O8: of the step with an illegal word only the port's own moves, `accept` and `complete`, remain beside the
write of `FAULT`. -/
theorem illegalWordWritesOnlyFault : Obligations.IllegalWordWritesOnlyFault := by
  intro s w rest e hf hm hp hd
  refine ⟨setMode .idle (setFault .illegalCommand (accept rest s)), ?_, rfl⟩
  rw [step_word hf hm hp, runWord_error hd, complete]

end Sys2Proof.Machine

/-! ## Reset and hazards (spec/70_reset_and_hazards.md): the port's moves, a send's time, reset by the host -/

namespace Sys2Proof.Machine

/-! ### The time of a send (R216) -/

/-- The ones of a group: those of the byte and its parity bit (R110). -/
theorem groupBits_count_true (v : Byte) : (groupBits v).count true = popcount v + (parity v).toNat := by
  rw [groupBits, List.count_append, ← parity_eq_xorOfBits, popcount]
  cases parity v <;> rfl

/-- Of the nine bits of a group an even number are ones, so at most eight (R216). -/
theorem groupBits_count_true_le (v : Byte) : (groupBits v).count true ≤ 8 := by
  have hle : (groupBits v).count true ≤ 9 := List.count_le_length
  have heven := popcount_add_parity_even v
  rw [← groupBits_count_true] at heven
  omega

/-- The ones of a frame: the start marker and those of the five groups (R61). -/
theorem frame_count_true (hc : HomeCode) (a c : Byte) :
    (frame hc a c).count true = 1 + (groupBits (telegramByte hc a c 0)).count true +
      (groupBits (telegramByte hc a c 1)).count true + (groupBits (telegramByte hc a c 2)).count true +
      (groupBits (telegramByte hc a c 3)).count true + (groupBits (telegramByte hc a c 4)).count true := by
  have hpreamble : (List.replicate Config.syncLen false).count true = 0 := rfl
  have hstart : [true].count true = 1 := rfl
  have hend : [false].count true = 0 := rfl
  simp only [frame_eq_groups, List.count_append, hpreamble, hstart, hend, Nat.zero_add, Nat.add_zero]

/-- R216's bounds of `n1`: the start marker alone, and eight ones in every group beside it. -/
theorem frame_count_true_bounds (hc : HomeCode) (a c : Byte) :
    1 ≤ (frame hc a c).count true ∧ (frame hc a c).count true ≤ 41 := by
  have hgroup := fun j => groupBits_count_true_le (telegramByte hc a c j)
  rw [frame_count_true]
  exact ⟨by omega, by linarith only [hgroup 0, hgroup 1, hgroup 2, hgroup 3, hgroup 4]⟩

/-- One telegram: each of the 59 bits takes 800 microseconds and a one 400 more (R216). -/
theorem sleepTime_frame (p : Pin) (hc : HomeCode) (a c : Byte) :
    sleepTime (waveform p (frame hc a c)) = 47200 + 400 * (frame hc a c).count true := by
  have hlength := frame_length hc a c
  have hcount := List.count_false_add_count_true (frame hc a c)
  rw [sleepTime_waveform]
  omega

/-- A SEND's waveform: the telegram three times and two gaps (R216). -/
theorem sleepTime_sendWaveform (p : Pin) (bs : List Bool) :
    sleepTime (sendWaveform p bs) = 3 * sleepTime (waveform p bs) + 16000 := by
  have hgap : sleepTime [.sleep 8000] = 8000 := rfl
  simp only [sendWaveform, sleepTime_append, hgap]
  omega

/-- Settles O49: the events are three telegrams' and two gaps', and the bounds are those of the frame's ones. -/
theorem sendSleepTimeBounds : Obligations.SendSleepTimeBounds := by
  intro s p hc a c hv hp
  obtain ⟨htrace, -, -⟩ := sentTelegram_afterSend hc a c p s
  obtain ⟨hmin, hmax⟩ := frame_count_true_bounds hc a c
  have htime : sleepTime (sendWaveform p (frame hc a c)) = 3 * (47200 + 400 * (frame hc a c).count true) + 16000 := by
    rw [sleepTime_sendWaveform, sleepTime_frame]
  exact ⟨_, _, exec_send_pinned hv hp hc a c, htrace, htime, hmin, hmax, by omega, by omega⟩

/-! ### The port's moves (R202, R210) -/

/-- A word taken from the port has a next state, legal or not: the command's, or the one with `FAULT` written (R182). -/
theorem exists_runWord_eq_next (w : CmdWord) (s : State) : ∃ t, runWord w s = .next t := by
  cases hd : decode w with
  | ok i =>
    rw [runWord_ok hd]
    exact exists_exec_eq_next i s
  | error e => exact ⟨_, runWord_error hd s⟩

/-- Settles O10: the port has no move while `BUSY` (R210). -/
theorem busyPortHasNoMove : Obligations.BusyPortHasNoMove := by
  intro s hf hm
  simp only [step, portCycle, hf, hm, ne_eq, not_true, if_false]

/-- Settles O11: the port waits until the host presents a word (R202). -/
theorem idleBlockWaitsForAWord : Obligations.IdleBlockWaitsForAWord := by
  intro s hf hm hp
  simp only [step, portCycle, hf, hm, hp, ne_eq, not_true, if_false]

/-- Settles O12: the invariant has the block `IDLE`, where it waits if no word is presented and otherwise takes the
word, which has a next state. -/
theorem unfaultedSoundBlockAlwaysMoves : Obligations.UnfaultedSoundBlockAlwaysMoves := by
  intro s hinv hf
  have hidle := hinv.idleBetween
  cases hp : s.port with
  | nil => exact ⟨s, idleBlockWaitsForAWord s hf hidle hp⟩
  | cons w rest =>
    obtain ⟨u, hu⟩ := exists_runWord_eq_next w (accept rest s)
    exact ⟨setMode .idle u, (step_word hf hidle hp).trans (complete_next.mpr ⟨u, hu, rfl⟩)⟩

/-! ### Reset by the host (R200, R201) -/

/-- A host's reset leaves every line as it was: the line is a function of the trace, which the reset keeps (R31). -/
theorem hostReset_line (s : State) (p : Pin) : (hostReset s).line p = s.line p := rfl

/-- Settles O14: the block's own fields are those of the reset state, whose values O13 gives; the trace is kept. -/
theorem hostResetKeepsTheLine : Obligations.HostResetKeepsTheLine := by
  intro s
  obtain ⟨hbuf, hidx, hpin, hvalid, hfault, htxPtr, hmode, hrep, -⟩ := resetLeavesTheStatedValues
  exact ⟨hbuf, hidx, hpin, hvalid, hfault, htxPtr, hmode, hrep, rfl, hostReset_line s⟩

end Sys2Proof.Machine
